-- ==== Sys2Proof/Word.lean ====
section
/-! DEFINITION. The one word type of the hardware: a byte (00_scope.md R7, 10_state.md R21 with decision D2). -/

namespace Sys2Proof

/-- A byte: 8 bits, read everywhere as an unsigned integer 0 to 255 (00_scope.md R7). General registers, memory cells, opcode
and operand bytes are bytes; `pc`, `sp` and addresses are integers, not bytes (R7, 10_state.md R25, R27). -/
abbrev Byte := BitVec 8

/-- `wordRange`, the modulus of ALU results: 2^W = 256 with W = 8 (00_scope.md R5, decision D2, log 2). -/
def wordRange : Nat := 256

end Sys2Proof
end

