-- ==== Sys2Proof/Syntax.lean ====
section
/-! DEFINITION. The instructions, whole: the 11 rows of the catalog (30_encoding.md R77, spec/opcode_table.json). -/

namespace Sys2Proof

/-- The 11 mnemonics of the catalog (30_encoding.md R77), in the catalog's order. -/
inductive Mnemonic where
  | halt
  | loadImmediate
  | printReg
  | add
  | multiply
  | push
  | pop
  | jump
  | compare
  | jumpIfEqual
  | jumpIfNotEqual
deriving DecidableEq, Repr

/-- Every mnemonic once: the rows of the static opcode-to-handler mapping (30_encoding.md R84). -/
def allMnemonics : List Mnemonic :=
  [.halt, .loadImmediate, .printReg, .add, .multiply, .push, .pop, .jump, .compare, .jumpIfEqual, .jumpIfNotEqual]

/-- An instruction with its operand bytes (30_encoding.md R76). A register operand is kept as the WHOLE byte, 0 to 255: its
range is checked at the register access, not at decode (R79), and an operand that no access uses is never checked. -/
inductive Instr where
  /-- Format Z (41_halt_load_print.md R120). -/
  | halt
  /-- Format RI (41_halt_load_print.md R122). -/
  | loadImmediate (reg value : Byte)
  /-- Format R (41_halt_load_print.md R124). -/
  | printReg (reg : Byte)
  /-- Format RR (42_alu.md R134). -/
  | add (regA regB : Byte)
  /-- Format RR (42_alu.md R135). -/
  | multiply (regA regB : Byte)
  /-- Format R (43_stack.md R141). -/
  | push (reg : Byte)
  /-- Format R (43_stack.md R142). -/
  | pop (reg : Byte)
  /-- Format R (44_compare_and_jumps.md R151). -/
  | jump (reg : Byte)
  /-- Format RR (44_compare_and_jumps.md R153). -/
  | compare (regA regB : Byte)
  /-- Format R (44_compare_and_jumps.md R156). -/
  | jumpIfEqual (reg : Byte)
  /-- Format R (44_compare_and_jumps.md R157). -/
  | jumpIfNotEqual (reg : Byte)
deriving DecidableEq, Repr

end Sys2Proof
end

