-- ==== Sys2Proof/Config.lean ====
section
/-! DEFINITION. The parameters of the hardware (00_scope.md R5). No value of this hardware is left free (40_engine_and_dispatch.md
R111), so this file holds no free value. The default opcode bytes stand in Decode.lean (`opcodeOf`). -/

namespace Sys2Proof

/-- `NREGS`, fixed by the document at 8 (00_scope.md R5). -/
abbrev Config.numRegs : Nat := 8

/-- `MEM_SIZE`, the number of bytes of Memory: 256 (00_scope.md R5, decision D3, log 3). -/
def Config.memSize : Nat := 256

/-- `SP_RESET`, the stack pointer at the start of a run: 244 (00_scope.md R5, decision D4, log 4). -/
def Config.spReset : Nat := 244

/-- What a byte that nothing has written reads as: 0, the reset contents of Memory (10_state.md R36, R38). -/
def Config.unlistedByte : Byte := 0

/-- The parameter `OPC`: the opcode byte of each mnemonic (00_scope.md R5, decision D1). -/
abbrev OpcodeMap := Mnemonic → Byte

end Sys2Proof
end

