-- ==== Sys2Proof/WellFormed.lean ====
section
/-! DEFINITION. Which instructions are well formed: every register operand names a register (30_encoding.md R76: "legal values 0 to 7").
The hardware does not check this at decode (R79), so `step` does not ask for it; a well-formed instruction never raises
InvalidRegister. -/

namespace Sys2Proof

/-- An operand byte that names a general register: 0 to 7 (10_state.md R22, 30_encoding.md R79). -/
def isRegOperand (b : Byte) : Bool := decide (b.toNat < Config.numRegs)

/-- The operand bytes of an instruction that are register indices (30_encoding.md R76, R77). -/
def regOperands : Instr → List Byte
  | .halt => []
  | .loadImmediate reg _ => [reg]
  | .printReg reg => [reg]
  | .add regA regB => [regA, regB]
  | .multiply regA regB => [regA, regB]
  | .push reg => [reg]
  | .pop reg => [reg]
  | .jump reg => [reg]
  | .compare regA regB => [regA, regB]
  | .jumpIfEqual reg => [reg]
  | .jumpIfNotEqual reg => [reg]

/-- "register index used by any instruction must be in [0, 8)" (10_state.md R22). -/
def wellFormed (i : Instr) : Bool := (regOperands i).all isRegOperand

end Sys2Proof
end

