-- ==== Sys2Proof/Decode.lean ====
section
/-! DEFINITION. The decoder (dispatcher) and the encoder, from the tables of 30_encoding.md R76 to R78. Both take the opcode map `OPC`
as an argument (30_encoding.md R78: "a model should take them as the parameter"); `decode` and `encode` use the default. -/

namespace Sys2Proof

/-- The default opcode byte of each instruction (30_encoding.md R78, decision D1, log 1: PRESUMED, unsafe). -/
def opcodeOf : OpcodeMap
  | .halt           => 0b00000001#8
  | .loadImmediate  => 0b10000010#8
  | .printReg       => 0b01000111#8
  | .add            => 0b10100000#8
  | .multiply       => 0b10100010#8
  | .push           => 0b01000101#8
  | .pop            => 0b01000110#8
  | .jump           => 0b01010100#8
  | .compare        => 0b10100111#8
  | .jumpIfEqual    => 0b01010101#8
  | .jumpIfNotEqual => 0b01010110#8

/-- What 00_scope.md R5 asks of any `OPC`: 11 distinct byte values, and not `0xFF`. -/
def opcodeMapLegal (opc : OpcodeMap) : Prop := Function.Injective opc ∧ ∀ m, opc m ≠ 0xFF#8

/-- How many operand bytes follow the opcode: a property of the mnemonic alone (30_encoding.md R77). -/
def operandCount : Mnemonic → Nat
  | .halt           => 0
  | .loadImmediate  => 2
  | .printReg       => 1
  | .add            => 2
  | .multiply       => 2
  | .push           => 1
  | .pop            => 1
  | .jump           => 1
  | .compare        => 2
  | .jumpIfEqual    => 1
  | .jumpIfNotEqual => 1

/-- The length in bytes: 1 + operand count (30_encoding.md R75). -/
def instrLength (m : Mnemonic) : Nat := 1 + operandCount m

/-- The mnemonic of an instruction. -/
def mnemonicOf : Instr → Mnemonic
  | .halt => .halt
  | .loadImmediate _ _ => .loadImmediate
  | .printReg _ => .printReg
  | .add _ _ => .add
  | .multiply _ _ => .multiply
  | .push _ => .push
  | .pop _ => .pop
  | .jump _ => .jump
  | .compare _ _ => .compare
  | .jumpIfEqual _ => .jumpIfEqual
  | .jumpIfNotEqual _ => .jumpIfNotEqual

/-- The look-up in the static mapping: the WHOLE opcode byte is compared (30_encoding.md R78, R84; 40_engine_and_dispatch.md R102). -/
def lookupOpcode (opc : OpcodeMap) (op : Byte) : Option Mnemonic := allMnemonics.find? fun m => opc m == op

/-- The instruction a mnemonic makes of the two bytes after its opcode; a byte it has no operand for is ignored
(40_engine_and_dispatch.md R103). -/
def buildInstr (m : Mnemonic) (b1 b2 : Byte) : Instr :=
  match m with
  | .halt           => .halt
  | .loadImmediate  => .loadImmediate b1 b2
  | .printReg       => .printReg b1
  | .add            => .add b1 b2
  | .multiply       => .multiply b1 b2
  | .push           => .push b1
  | .pop            => .pop b1
  | .jump           => .jump b1
  | .compare        => .compare b1 b2
  | .jumpIfEqual    => .jumpIfEqual b1
  | .jumpIfNotEqual => .jumpIfNotEqual b1

/-- Why bytes are no instruction. -/
inductive DecodeReject where
  /-- The opcode byte is not in the mapping (30_encoding.md R81). -/
  | unknownOpcode (op : Byte)
  /-- There is no opcode byte. -/
  | noOpcodeByte
  /-- A known opcode without two bytes after it: both are always read (40_engine_and_dispatch.md R103, decision D7). -/
  | missingOperandBytes
deriving DecidableEq, Repr

/-- Decode the three bytes a step fetches (40_engine_and_dispatch.md R102, R103). -/
def decodeWith (opc : OpcodeMap) (op b1 b2 : Byte) : Except DecodeReject Instr :=
  match lookupOpcode opc op with
  | some m => .ok (buildInstr m b1 b2)
  | none => .error (.unknownOpcode op)

/-- `decodeWith` at the default opcode bytes. -/
def decode (op b1 b2 : Byte) : Except DecodeReject Instr := decodeWith opcodeOf op b1 b2

/-- Decode the front of a list of bytes in ascending address order (20_memory.md R56) and answer the bytes after the instruction.
Total on any list: what is no instruction is rejected by name. -/
def decodeBytesWith (opc : OpcodeMap) : List Byte → Except DecodeReject (Instr × List Byte)
  | [] => .error .noOpcodeByte
  | op :: rest =>
    match lookupOpcode opc op with
    | none => .error (.unknownOpcode op)
    | some m =>
      match rest with
      | b1 :: b2 :: _ => .ok (buildInstr m b1 b2, rest.drop (operandCount m))
      | _ => .error .missingOperandBytes

/-- `decodeBytesWith` at the default opcode bytes. -/
def decodeBytes (bytes : List Byte) : Except DecodeReject (Instr × List Byte) := decodeBytesWith opcodeOf bytes

/-- The bytes of an instruction, opcode first, operands in the catalog's order (30_encoding.md R76). -/
def encodeWith (opc : OpcodeMap) : Instr → List Byte
  | .halt => [opc .halt]
  | .loadImmediate reg value => [opc .loadImmediate, reg, value]
  | .printReg reg => [opc .printReg, reg]
  | .add regA regB => [opc .add, regA, regB]
  | .multiply regA regB => [opc .multiply, regA, regB]
  | .push reg => [opc .push, reg]
  | .pop reg => [opc .pop, reg]
  | .jump reg => [opc .jump, reg]
  | .compare regA regB => [opc .compare, regA, regB]
  | .jumpIfEqual reg => [opc .jumpIfEqual, reg]
  | .jumpIfNotEqual reg => [opc .jumpIfNotEqual, reg]

/-- `encodeWith` at the default opcode bytes. -/
def encode (i : Instr) : List Byte := encodeWith opcodeOf i

/-- Byte `k` of an instruction whose lowest `nbits` bits are those of `w` and whose bits above them are 0: byte 0, the opcode, is
bits 7 to 0 (spec/opcode_table.json), byte 1 bits 15 to 8, byte 2 bits 23 to 16. -/
def wordByte (nbits w k : Nat) : Byte := BitVec.ofNat 8 (w % 2 ^ nbits / 2 ^ (8 * k))

/-- The instruction the decoder reads from a word numbered as spec/opcode_table.json numbers it. -/
def decodeTableWord (nbits w : Nat) : Option Instr :=
  match decode (wordByte nbits w 0) (wordByte nbits w 1) (wordByte nbits w 2) with
  | .ok i => some i
  | .error _ => none

end Sys2Proof
end

