-- ==== Sys2Proof/Machine/State.lean ====
section
/-! DEFINITION. The state of the machine as plain data, complete by 10_state.md R20, and the state after reset (10_state.md R38,
70_reset_and_hazards.md R200). -/

namespace Sys2Proof.Machine

/-- The run state (10_state.md R31). -/
inductive RunState where
  | running
  | halted
  | aborted
deriving DecidableEq, Repr

/-- The three comparison flags, three separate bits (10_state.md R28, decision D16). -/
structure Flags where
  equal : Bool
  less : Bool
  greater : Bool
deriving DecidableEq, Repr

/-- The fault causes with the information each carries (60_exceptions.md R170). Raising one is no `Fault` of the model: the machine TAKES
it, entering ABORTED (60_exceptions.md R177). -/
inductive Cause where
  /-- Raised by dispatch with the opcode byte (60_exceptions.md R171). -/
  | unknownOpcode (op : Byte)
  /-- Raised by a memory access with the address, an integer (60_exceptions.md R172). -/
  | outOfBounds (addr : Int)
  /-- Raised by a register access with the index (60_exceptions.md R173). -/
  | invalidRegister (index : Byte)
  /-- Kept so that the cause set matches the document; no step raises it (60_exceptions.md R174, decision D19, log 17). -/
  | unsupportedOperation
deriving DecidableEq, Repr

/-- The abort record: a cause code and one information value (10_state.md R32, 60_exceptions.md R170). `info` is `none` where the cause
carries no information (code 4). -/
structure AbortRecord where
  code : Nat
  info : Option Int
deriving DecidableEq, Repr

/-- Memory as the list of its bytes that differ from the reset contents, addresses strictly rising (20_memory.md R50). -/
abbrev Memory := List Host.Cell

/-- The complete state of the hardware (10_state.md R20). -/
structure State where
  /-- General registers `x[0..7]` (10_state.md R21). -/
  regs : Vector Byte Config.numRegs
  /-- Program counter, an integer (10_state.md R24, R25). -/
  pc : Nat
  /-- Stack pointer, an integer (10_state.md R27). -/
  sp : Nat
  /-- Flags `E`, `L`, `G` (10_state.md R28). -/
  flags : Flags
  /-- Memory (10_state.md R36). -/
  mem : Memory
  /-- Run state `run` (10_state.md R31). -/
  run : RunState
  /-- Abort record `abort` (10_state.md R32). -/
  abort : AbortRecord
  /-- Output stream `OUT`, oldest first (10_state.md R33). -/
  out : List Byte
deriving DecidableEq, Repr

/-- The reasons a step can stop. The four faults of 60_exceptions.md R170 are NOT among them: they are next states in ABORTED. -/
inductive Fault where
  /-- Raised by `step` alone, when `run` is HALTED or ABORTED: no step is enabled there (40_engine_and_dispatch.md R100). Safe: the model
  stops where the hardware does nothing (log 11). -/
  | notEnabled
deriving DecidableEq, Repr

/-- The reasons the model gives an instruction no meaning. -/
inductive Refusal where
  /-- Raised by `exec` for an instruction the model does not cover. Safe. No arm of `exec` uses it. -/
  | notModelled (mnemonic : String)
deriving DecidableEq, Repr

/-- The machine right after reset, before loading (10_state.md R38, 70_reset_and_hazards.md R200). The abort record is "unspecified"
there: code 0 and no information are a DESIGN CHOICE (log 10). -/
def State.reset : State where
  regs := Vector.replicate Config.numRegs 0
  pc := 0
  sp := Config.spReset
  flags := { equal := false, less := false, greater := false }
  mem := []
  run := .running
  abort := { code := 0, info := none }
  out := []

end Sys2Proof.Machine
end

