-- ==== Sys2Proof/Machine/Flags.lean ====
section
/-! DEFINITION. The one flag computation of the hardware: COMPARE's (44_compare_and_jumps.md R152 to R154), and the flag states of
10_state.md R29. -/

namespace Sys2Proof.Machine

/-- The flags after comparing `a` with `b` as unsigned integers: exactly one is true (44_compare_and_jumps.md R153, R154). -/
def compareFlags (a b : Byte) : Flags :=
  if a.toNat = b.toNat then { equal := true, less := false, greater := false }
  else if a.toNat < b.toNat then { equal := false, less := true, greater := false }
  else { equal := false, less := false, greater := true }

/-- Flag state NONE: no COMPARE since reset (10_state.md R29). -/
def flagsNone : Flags := { equal := false, less := false, greater := false }

/-- Flag states EQ, LT and GT: exactly one flag is true (10_state.md R29). -/
def exactlyOneFlag (f : Flags) : Bool :=
  match f.equal, f.less, f.greater with
  | true, false, false => true
  | false, true, false => true
  | false, false, true => true
  | _, _, _ => false

/-- The four legal flag triples (10_state.md R29). -/
def flagsLegal (f : Flags) : Bool := decide (f = flagsNone) || exactlyOneFlag f

end Sys2Proof.Machine
end

