-- ==== Sys2Proof/Machine/Operands.lean ====
section
/-! DEFINITION. The operand forms (30_encoding.md R79, R80): a register operand is a whole byte that names a register or none; an immediate
is a byte used as it is and needs no operation. -/

namespace Sys2Proof.Machine

/-- The register an operand byte names: itself when it is 0 to 7, none when it is 8 to 255. Not masked to 3 bits (10_state.md R22,
30_encoding.md R79). -/
def regIndex (b : Byte) : Option (Fin Config.numRegs) :=
  if h : b.toNat < Config.numRegs then some ⟨b.toNat, h⟩ else none

/-- The operand byte that names register `i`. -/
def regByte (i : Fin Config.numRegs) : Byte := BitVec.ofNat 8 i.val

/-- The value of register `i`, for an index already known to be in range. -/
def State.reg (s : State) (i : Fin Config.numRegs) : Byte := s.regs[i]

/-- `x[b]`: read the register an operand byte names (10_state.md R22, 00_scope.md R8). -/
def State.getReg (s : State) (b : Byte) : Except Cause Byte :=
  match regIndex b with
  | some i => .ok (s.reg i)
  | none => .error (.invalidRegister b)

/-- `x[b] <- v`: write the register an operand byte names (10_state.md R22, 00_scope.md R8). -/
def State.setReg (s : State) (b v : Byte) : Except Cause State :=
  match regIndex b with
  | some i => .ok { s with regs := s.regs.set i v }
  | none => .error (.invalidRegister b)

end Sys2Proof.Machine
end

