-- ==== Sys2Proof/Machine/Ops.lean ====
section
/-! DEFINITION. The named operations over the state: field updates, memory, output, abort entry, the engine's use of a handler's result,
and the fetch. -/

namespace Sys2Proof.Machine

/-! ### Field updates: the state with one field replaced (lemmas in Laws/State.lean) -/

def State.withRegs (s : State) (v : Vector Byte Config.numRegs) : State := { s with regs := v }
def State.withPc (s : State) (v : Nat) : State := { s with pc := v }
def State.withSp (s : State) (v : Nat) : State := { s with sp := v }
def State.withFlags (s : State) (v : Flags) : State := { s with flags := v }
def State.withMem (s : State) (v : Memory) : State := { s with mem := v }
def State.withRun (s : State) (v : RunState) : State := { s with run := v }
def State.withAbort (s : State) (v : AbortRecord) : State := { s with abort := v }
def State.withOut (s : State) (v : List Byte) : State := { s with out := v }

/-! ### Memory -/

/-- The byte at an address: the listed one, else the reset contents (20_memory.md R51, 10_state.md R38). -/
def Memory.get : Memory → Nat → Byte
  | [], _ => Config.unlistedByte
  | (b, w) :: m, a => if a = b then w else Memory.get m a

/-- The memory with the byte `v` at address `a`, in the canonical form: a byte equal to the reset contents is not listed. -/
def Memory.set : Memory → Nat → Byte → Memory
  | [], a, v => if v = Config.unlistedByte then [] else [(a, v)]
  | (b, w) :: m, a, v =>
    if a < b then
      if v = Config.unlistedByte then (b, w) :: m else (a, v) :: (b, w) :: m
    else if a = b then
      if v = Config.unlistedByte then m else (a, v) :: m
    else (b, w) :: Memory.set m a v

/-- The canonical form from address `lo` up: addresses strictly rising and inside memory, no entry equal to the reset contents. -/
def Memory.wfFrom : Nat → Memory → Bool
  | _, [] => true
  | lo, (b, w) :: m => decide (lo ≤ b ∧ b < Config.memSize ∧ w ≠ Config.unlistedByte) && Memory.wfFrom (b + 1) m

/-- The canonical form of a memory. -/
def Memory.wf (m : Memory) : Bool := Memory.wfFrom 0 m

/-- Whether an integer is an address of Memory: no wrap, no clamp (20_memory.md R50, R53). -/
abbrev inMemory (addr : Int) : Prop := 0 ≤ addr ∧ addr < (Config.memSize : Int)

/-- `MemRead(addr, 1)` (20_memory.md R51). -/
def State.memRead (s : State) (addr : Int) : Except Cause Byte :=
  if inMemory addr then .ok (s.mem.get addr.toNat) else .error (.outOfBounds addr)

/-- `MemWrite(addr, 1, v)` (20_memory.md R52). -/
def State.memWrite (s : State) (addr : Int) (v : Byte) : Except Cause State :=
  if inMemory addr then .ok (s.withMem (s.mem.set addr.toNat v)) else .error (.outOfBounds addr)

/-! ### Output -/

/-- `out(v)`: append a byte to `OUT` (00_scope.md R8, 10_state.md R33). -/
def State.emit (s : State) (v : Byte) : State := s.withOut (s.out ++ [v])

/-! ### Abort -/

/-- The code and the information of a cause (60_exceptions.md R170, decision D10, log 10). -/
def causeRecord : Cause → AbortRecord
  | .unknownOpcode op => { code := 1, info := some (op.toNat : Int) }
  | .outOfBounds addr => { code := 2, info := some addr }
  | .invalidRegister index => { code := 3, info := some (index.toNat : Int) }
  | .unsupportedOperation => { code := 4, info := none }

/-- Abort entry (60_exceptions.md R177): from the state BEFORE the step, `run` becomes ABORTED and the record is written; nothing
else changes (40_engine_and_dispatch.md R108, decision D8, log 8). There is no return from it (60_exceptions.md R179). -/
def takeAbort (c : Cause) (s : State) : State := (s.withRun .aborted).withAbort (causeRecord c)

/-! ### The engine's last phase -/

/-- A handler's result (00_scope.md R9). -/
inductive Result where
  /-- `Continue(pcDelta)`. -/
  | continueBy (pcDelta : Nat)
  /-- `Redirected(newPc)`. -/
  | redirected (newPc : Nat)
  /-- `Halt`. -/
  | halt
deriving DecidableEq, Repr

/-- Phase 5: the program counter and the run state by the handler's result (40_engine_and_dispatch.md R105; HALT keeps `pc` by decision
D6, log 6). -/
def applyResult (s : State) : Result → State
  | .continueBy pcDelta => s.withPc (s.pc + pcDelta)
  | .redirected newPc => s.withPc newPc
  | .halt => s.withRun .halted

/-- Commit a handler's outcome: all its writes and the PC update together, or, if it raised, none of them and the abort entry from the
state before (40_engine_and_dispatch.md R104, R105, R108, R110). -/
def commit (s : State) : Except Cause (State × Result) → Host.Outcome State Fault Refusal
  | .ok (t, r) => .next (applyResult t r)
  | .error c => .next (takeAbort c s)

/-! ### Fetch -/

/-- Phases 1 to 3 (40_engine_and_dispatch.md R101 to R103): the opcode byte, the look-up, then BOTH following bytes whatever the
instruction's length, each bounds checked (decisions D7 and D9, log 7 and 9). -/
def fetch (opc : OpcodeMap) (s : State) : Except Cause Instr := do
  let op ← s.memRead (s.pc : Int)
  match lookupOpcode opc op with
  | none => .error (.unknownOpcode op)
  | some m => do
    let b1 ← s.memRead ((s.pc : Int) + 1)
    let b2 ← s.memRead ((s.pc : Int) + 2)
    .ok (buildInstr m b1 b2)

/-- Place three bytes where the next step fetches, and enable that step: `run` RUNNING, and `pc` 0 where three bytes at `pc` would
leave memory (log 13). The loader's part in a test of one instruction. -/
def placeInstruction (s : State) (b0 b1 b2 : Byte) : State :=
  let pc := if s.pc + 2 < Config.memSize then s.pc else 0
  ((s.withRun .running).withPc pc).withMem (((s.mem.set pc b0).set (pc + 1) b1).set (pc + 2) b2)

/-! ### Status readout -/

/-- The 2-bit code of the run state the host reads (10_state.md R31, suggested by decision D10). -/
def runCode : RunState → BitVec 2
  | .running => 0
  | .halted => 1
  | .aborted => 2

end Sys2Proof.Machine
end

