-- ==== Sys2Proof/Machine/Alu.lean ====
section
/-! DEFINITION. The ALU, ADD and MULTIPLY (42_alu.md). -/

namespace Sys2Proof.Machine

/-- The ALU's operations: exactly two (42_alu.md R133). -/
inductive AluOp where
  | add
  | multiply
deriving DecidableEq, Repr

/-- `alu(op, a, b)`: a pure function, the exact result reduced modulo `wordRange` (42_alu.md R130). -/
def alu (op : AluOp) (a b : Byte) : Byte :=
  match op with
  | .add => BitVec.ofNat 8 ((a.toNat + b.toNat) % wordRange)
  | .multiply => BitVec.ofNat 8 (a.toNat * b.toNat % wordRange)

/-- The shared shape of ADD and MULTIPLY: read both registers, first operand first (decision D9), then write the first. -/
def aluHandler (op : AluOp) (regA regB : Byte) (s : State) : Except Cause (State × Result) := do
  let a ← s.getReg regA
  let b ← s.getReg regB
  let t ← s.setReg regA (alu op a b)
  .ok (t, .continueBy 3)

/-- ADD regA, regB (42_alu.md R134). -/
def execAdd (regA regB : Byte) (s : State) : Host.Outcome State Fault Refusal :=
  commit s (aluHandler .add regA regB s)

/-- MULTIPLY regA, regB (42_alu.md R135). -/
def execMultiply (regA regB : Byte) (s : State) : Host.Outcome State Fault Refusal :=
  commit s (aluHandler .multiply regA regB s)

end Sys2Proof.Machine
end

