-- ==== Sys2Proof/Machine/CompareJump.lean ====
section
/-! DEFINITION. JUMP, COMPARE, JUMP_IF_EQUAL and JUMP_IF_NOT_EQUAL (44_compare_and_jumps.md). -/

namespace Sys2Proof.Machine

/-- A taken jump: the target is exactly the register's value (44_compare_and_jumps.md R150, R151). -/
def jumpTo (reg : Byte) (s : State) : Except Cause (State × Result) := do
  let t ← s.getReg reg
  .ok (s, .redirected t.toNat)

/-- JUMP reg (44_compare_and_jumps.md R151). -/
def execJump (reg : Byte) (s : State) : Host.Outcome State Fault Refusal := commit s (jumpTo reg s)

/-- COMPARE regA, regB (44_compare_and_jumps.md R153). -/
def execCompare (regA regB : Byte) (s : State) : Host.Outcome State Fault Refusal :=
  commit s do
    let a ← s.getReg regA
    let b ← s.getReg regB
    .ok (s.withFlags (compareFlags a b), .continueBy 3)

/-- JUMP_IF_EQUAL reg (44_compare_and_jumps.md R156): the operand is examined only when the jump is taken. -/
def execJumpIfEqual (reg : Byte) (s : State) : Host.Outcome State Fault Refusal :=
  commit s (if s.flags.equal then jumpTo reg s else .ok (s, .continueBy 2))

/-- JUMP_IF_NOT_EQUAL reg (44_compare_and_jumps.md R157): the operand is examined only when the jump is taken. -/
def execJumpIfNotEqual (reg : Byte) (s : State) : Host.Outcome State Fault Refusal :=
  commit s (if s.flags.equal then .ok (s, .continueBy 2) else jumpTo reg s)

end Sys2Proof.Machine
end

