-- ==== Sys2Proof/Machine/HaltLoadPrint.lean ====
section
/-! DEFINITION. HALT, LOAD_IMMEDIATE and PRINT_REG (41_halt_load_print.md). -/

namespace Sys2Proof.Machine

/-- HALT (41_halt_load_print.md R120). -/
def execHalt (s : State) : Host.Outcome State Fault Refusal := commit s (.ok (s, .halt))

/-- LOAD_IMMEDIATE reg, value (41_halt_load_print.md R122). -/
def execLoadImmediate (reg value : Byte) (s : State) : Host.Outcome State Fault Refusal :=
  commit s do
    let t ← s.setReg reg value
    .ok (t, .continueBy 3)

/-- PRINT_REG reg (41_halt_load_print.md R124). -/
def execPrintReg (reg : Byte) (s : State) : Host.Outcome State Fault Refusal :=
  commit s do
    let v ← s.getReg reg
    .ok (s.emit v, .continueBy 2)

end Sys2Proof.Machine
end

