-- ==== Sys2Proof/Machine/Stack.lean ====
section
/-! DEFINITION. PUSH and POP (43_stack.md). -/

namespace Sys2Proof.Machine

/-- PUSH's effective address, `sp - 1` as an integer: -1 when `sp` is 0 (43_stack.md R140, R141). -/
def pushAddr (s : State) : Int := (s.sp : Int) - 1

/-- POP's effective address, `sp` (43_stack.md R140, R142). -/
def popAddr (s : State) : Int := (s.sp : Int)

/-- PUSH reg (43_stack.md R141): the register index is examined before the address (decision D9, log 9). -/
def execPush (reg : Byte) (s : State) : Host.Outcome State Fault Refusal :=
  commit s do
    let v ← s.getReg reg
    let t ← s.memWrite (pushAddr s) v
    .ok (t.withSp (pushAddr s).toNat, .continueBy 2)

/-- POP reg (43_stack.md R142): the address is examined before the register index (decision D9, log 9). -/
def execPop (reg : Byte) (s : State) : Host.Outcome State Fault Refusal :=
  commit s do
    let v ← s.memRead (popAddr s)
    let t ← s.setReg reg v
    .ok (t.withSp (s.sp + 1), .continueBy 2)

end Sys2Proof.Machine
end

