-- ==== Sys2Proof/Machine/Dispatch.lean ====
section
/-! DEFINITION. The static opcode-to-handler mapping as one match (30_encoding.md R84, 40_engine_and_dispatch.md R104). -/

namespace Sys2Proof.Machine

/-- The meaning of each instruction, the engine's last phase included. `run` is not asked here: `step` does (R100). -/
def exec (i : Instr) (s : State) : Host.Outcome State Fault Refusal :=
  match i with
  | .halt => Sys2Proof.Machine.execHalt s
  | .loadImmediate reg value => Sys2Proof.Machine.execLoadImmediate reg value s
  | .printReg reg => Sys2Proof.Machine.execPrintReg reg s
  | .add regA regB => Sys2Proof.Machine.execAdd regA regB s
  | .multiply regA regB => Sys2Proof.Machine.execMultiply regA regB s
  | .push reg => Sys2Proof.Machine.execPush reg s
  | .pop reg => Sys2Proof.Machine.execPop reg s
  | .jump reg => Sys2Proof.Machine.execJump reg s
  | .compare regA regB => Sys2Proof.Machine.execCompare regA regB s
  | .jumpIfEqual reg => Sys2Proof.Machine.execJumpIfEqual reg s
  | .jumpIfNotEqual reg => Sys2Proof.Machine.execJumpIfNotEqual reg s

end Sys2Proof.Machine
end

