-- ==== Sys2Proof/Machine/Step.lean ====
section
/-! DEFINITION. The step (40_engine_and_dispatch.md R110), and how the host places an instruction. -/

namespace Sys2Proof.Machine

/-- One whole step under an opcode map (40_engine_and_dispatch.md R100 to R110). -/
def stepWith (opc : OpcodeMap) (s : State) : Host.Outcome State Fault Refusal :=
  match s.run with
  | .running =>
    match fetch opc s with
    | .ok i => exec i s
    | .error c => .next (takeAbort c s)
  | .halted => .fault .notEnabled
  | .aborted => .fault .notEnabled

/-- The step at the default opcode bytes (30_encoding.md R78). -/
def step (s : State) : Host.Outcome State Fault Refusal := stepWith opcodeOf s

/-- The state with the instruction of the table's word placed where the next step fetches (log 13). -/
def State.withFetchWord (s : State) (nbits w : Nat) : State :=
  placeInstruction s (wordByte nbits w 0) (wordByte nbits w 1) (wordByte nbits w 2)

end Sys2Proof.Machine
end

