-- ==== Sys2Proof/Machine/Loader.lean ====
section
/-! DEFINITION. The loader's interface to the machine (70_reset_and_hazards.md R201 to R203). -/

namespace Sys2Proof.Machine

/-- Write a byte sequence at ascending addresses from `a` on (70_reset_and_hazards.md R201). -/
def loadBytes : List Byte → Nat → Memory → Memory
  | [], _, m => m
  | b :: bs, a, m => loadBytes bs (a + 1) (m.set a b)

/-- The state at the start of a run: reset, then the program's bytes from address 0 (70_reset_and_hazards.md R203, 10_state.md R38). A program
longer than memory is refused: no run exists (R202, decision D14, log 13). -/
def initialState (program : List Byte) : Option State :=
  if program.length ≤ Config.memSize then some (State.reset.withMem (loadBytes program 0 State.reset.mem)) else none

end Sys2Proof.Machine
end

