-- ==== Sys2Proof/Safety.lean ====
section
/-! DEFINITION. What the claims are stated in: the legal abort records, the machine's invariant, the end of a run, and bounded running. -/

namespace Sys2Proof.Machine

/-- The end of a run is exactly that `run` is not RUNNING (40_engine_and_dispatch.md R109). -/
def runEnded (s : State) : Prop := s.run ≠ .running

/-- The records an abort can leave (60_exceptions.md R170, R172): UnknownOpcode with a byte, OutOfBounds with -1 or `MEM_SIZE`, InvalidRegister
with a byte from 8 up. -/
def abortRecordLegal (r : AbortRecord) : Prop :=
  (r.code = 1 ∧ ∃ b : Byte, r.info = some (b.toNat : Int)) ∨
  (r.code = 2 ∧ (r.info = some (-1) ∨ r.info = some (Config.memSize : Int))) ∨
  (r.code = 3 ∧ ∃ b : Byte, Config.numRegs ≤ b.toNat ∧ r.info = some (b.toNat : Int))

/-- The invariant of the machine. The list form of memory is the model's choice (log 14); the ranges are decision D5 (log 5), the record's codes D10 (log 10). -/
structure Inv (s : State) : Prop where
  /-- Memory is in its canonical form (log 14). -/
  memWf : s.mem.wf = true
  /-- `pc` is 0 to `MEM_SIZE` (10_state.md R25). -/
  pcLe : s.pc ≤ Config.memSize
  /-- `sp` is 0 to `MEM_SIZE` (10_state.md R27). -/
  spLe : s.sp ≤ Config.memSize
  /-- The flag triple is one of four (10_state.md R29). -/
  flagsOk : flagsLegal s.flags = true
  /-- In ABORTED the record names a cause (10_state.md R32). -/
  abortOk : s.run = .aborted → abortRecordLegal s.abort

/-- What a bounded run answers (40_engine_and_dispatch.md R109, 70_reset_and_hazards.md R209). -/
inductive RunEnd where
  /-- The run ended in this state: HALTED or ABORTED. -/
  | ended (s : State)
  /-- The budget ran out: the machine is still RUNNING, and this is no end of the run. -/
  | exhausted (s : State)
deriving DecidableEq, Repr

/-- Run with a step budget: a runner's parameter, not part of the hardware (70_reset_and_hazards.md R209, decision D18). -/
def runFor : Nat → State → RunEnd
  | budget, s =>
    match s.run, budget with
    | .halted, _ => .ended s
    | .aborted, _ => .ended s
    | .running, 0 => .exhausted s
    | .running, k + 1 =>
      match step s with
      | .next t => runFor k t
      | .fault _ => .ended s
      | .refused _ => .ended s

/-- Execute instructions one after another, stopping at the first that answers no next state. -/
def execAll : List Instr → State → Host.Outcome State Fault Refusal
  | [], s => .next s
  | i :: is, s =>
    match exec i s with
    | .next t => execAll is t
    | .fault r => .fault r
    | .refused r => .refused r

/-- Two states that agree on everything but the Less and Greater flags. -/
def sameButLessGreater (s t : State) : Prop :=
  t = s.withFlags { s.flags with less := t.flags.less, greater := t.flags.greater }

/-- Executing `i` in `s` does nothing but enter ABORTED with the record of `c` (60_exceptions.md R177). -/
def abortsWith (i : Instr) (s : State) (c : Cause) : Prop :=
  exec i s = .next { s with run := .aborted, abort := causeRecord c }

/-- The registers an instruction writes (10_state.md R23, the column "writes"). -/
def writtenRegs : Instr → List Byte
  | .halt => []
  | .loadImmediate reg _ => [reg]
  | .printReg _ => []
  | .add regA _ => [regA]
  | .multiply regA _ => [regA]
  | .push _ => []
  | .pop reg => [reg]
  | .jump _ => []
  | .compare _ _ => []
  | .jumpIfEqual _ => []
  | .jumpIfNotEqual _ => []

end Sys2Proof.Machine
end

