-- ==== Sys2Proof/Certificates/Slice0/Obligations.lean ====
section
/-! DEFINITION. The statements for the provers. Statements about fetching and stepping hold for EVERY opcode map `opc`, as 30_encoding.md
R78 asks; the byte values of the default map (decision D1, log 1) stand in the few statements that name them. In a frame,
`t = { s with a := t.a, … }` says that every field of the state but the listed ones is unchanged, all of memory included when `mem` is not
listed. -/

open Sys2Proof Sys2Proof.Machine

/-! ### Reset, loading, and when a step happens -/

/-- 10_state.md §8: the state after reset. `sp` is the parameter SP_RESET (decision D4), and a byte of memory is the loader's or 0. The abort record is
unspecified there and not named here. -/
def Obligations.ResetLeavesTheStartState : Prop :=
  (∀ i, State.reset.reg i = 0) ∧ State.reset.pc = 0 ∧ State.reset.sp = 244 ∧
  State.reset.flags = { equal := false, less := false, greater := false } ∧
  (∀ a, State.reset.mem.get a = 0) ∧ State.reset.run = .running ∧ State.reset.out = []

/-- The invariant `Inv` holds after reset. Its clauses on the canonical list of memory (log 14, DESIGN CHOICE), on the ranges of `pc` and `sp` (decision D5,
log 5) and on the abort record's codes (decision D10, log 10) are choices. -/
def Obligations.ResetMeetsTheInvariant : Prop := Inv State.reset

/-- 70_reset_and_hazards.md §1: a program that fits is written to memory from address 0 in order, and nothing else of the reset state changes; a longer
one is refused (decision D14, log 13). The start state meets `Inv`, whose choices are logs 5, 10 and 14. -/
def Obligations.LoadingWritesTheProgramFromAddressZero : Prop :=
  ∀ program : List Byte,
    (program.length ≤ 256 →
      ∃ s, initialState program = some s ∧ (∀ a, s.mem.get a = program.getD a 0) ∧ s = { State.reset with mem := s.mem } ∧ Inv s) ∧
    (256 < program.length → initialState program = none)

/-- 30_encoding.md §4, 41_halt_load_print.md (derived there, under the default OPC of decision D1): a zero byte, what memory holds where
nothing was loaded or pushed, is no instruction and no NOP. Fetching one aborts with UnknownOpcode(0). -/
def Obligations.ZeroByteIsNoInstruction : Prop :=
  ∀ s : State, s.run = .running → s.pc < 256 → s.mem.get s.pc = 0 →
    step s = .next { s with run := .aborted, abort := causeRecord (.unknownOpcode 0) }

/-- R100: "A step is enabled if and only if `run` = RUNNING", and the engine starts RUNNING with PC = 0. -/
def Obligations.StepIsEnabledExactlyWhenRunning : Prop :=
  (∀ s : State, (∃ t, step s = .next t) ↔ s.run = .running) ∧ State.reset.run = .running ∧ State.reset.pc = 0

/-- The model's choice (log 11): in HALTED and in ABORTED the step stops by the name `notEnabled`. -/
def Obligations.StepStopsByNameInTerminalStates : Prop :=
  ∀ s : State, s.run ≠ .running → step s = .fault .notEnabled

/-- A step is the decoded instruction: when the three bytes at `pc` are in memory and decode to `i`, the step is `exec i`, which also moves
`pc` past the instruction's bytes. -/
def Obligations.StepRunsTheDecodedInstruction : Prop :=
  (∀ (opc : OpcodeMap) (s : State) (i : Instr), s.run = .running → s.pc + 2 < 256 →
    decodeWith opc (s.mem.get s.pc) (s.mem.get (s.pc + 1)) (s.mem.get (s.pc + 2)) = .ok i → stepWith opc s = exec i s) ∧
  (∀ s : State, s.pc + 2 < 256 → s.run = .running → ∀ i : Instr,
    decode (s.mem.get s.pc) (s.mem.get (s.pc + 1)) (s.mem.get (s.pc + 2)) = .ok i → step s = exec i s)

/-! ### Decoding and encoding -/

/-- A few words written out from 30_encoding.md §1 and §2 (opcode bytes by decision D1). -/
def Obligations.WordsFromTheSpecDecode : Prop :=
  decode 0b00000001#8 0#8 0#8 = .ok .halt ∧
  decode 0b10000010#8 0b00000111#8 0b11111111#8 = .ok (.loadImmediate 7 255) ∧
  decode 0b10100010#8 0b00000010#8 0b00000101#8 = .ok (.multiply 2 5) ∧
  decode 0b01000110#8 0b00000001#8 0b01000111#8 = .ok (.pop 1) ∧
  decode 0b10100111#8 0b00000100#8 0b00000011#8 = .ok (.compare 4 3) ∧
  decode 0b01010110#8 0b00000110#8 0b00000000#8 = .ok (.jumpIfNotEqual 6) ∧
  decode 0b11111111#8 0#8 0#8 = .error (.unknownOpcode 0b11111111#8)

/-- Decode and encode agree, for every legal opcode map, every instruction and every operand byte: the decoder gives back the instruction and
the bytes after it, from a list and from the three bytes a step fetches. -/
def Obligations.DecodingAnEncodedInstructionGivesItBack : Prop :=
  ∀ (opc : OpcodeMap), opcodeMapLegal opc → ∀ (i : Instr) (f1 f2 : Byte) (tail : List Byte),
    decodeBytesWith opc (encodeWith opc i ++ f1 :: f2 :: tail) = .ok (i, f1 :: f2 :: tail) ∧
    (∀ op b1 b2 rest, encodeWith opc i ++ [f1, f2] = op :: b1 :: b2 :: rest → decodeWith opc op b1 b2 = .ok i)

/-- The other direction: what decodes to `i` begins with the bytes of `i`. -/
def Obligations.DecodedBytesBeginWithTheEncoding : Prop :=
  ∀ (opc : OpcodeMap) (op b1 b2 : Byte) (tail : List Byte) (i : Instr) (rest : List Byte),
    decodeBytesWith opc (op :: b1 :: b2 :: tail) = .ok (i, rest) →
      op :: b1 :: b2 :: tail = encodeWith opc i ++ rest ∧ decodeWith opc op b1 b2 = .ok i

/-- R84: one entry per opcode; no two mnemonics share an opcode and no mnemonic has two. The mapping is an argument of the step, not state,
so nothing changes it. -/
def Obligations.OpcodeMappingIsOneToOne : Prop :=
  ∀ (opc : OpcodeMap), opcodeMapLegal opc →
    (∀ m, lookupOpcode opc (opc m) = some m) ∧ (∀ op m, lookupOpcode opc op = some m → op = opc m) ∧
    (∀ m m', opc m = opc m' → m = m')

/-- 30_encoding.md §4: 245 of the 256 byte values are illegal under any legal opcode map, 0xFF among them, and fetching one aborts the run with
UnknownOpcode carrying the byte, wherever in memory it stands. -/
def Obligations.OtherOpcodeBytesAreIllegal : Prop :=
  ∀ (opc : OpcodeMap), opcodeMapLegal opc →
    ((List.range 256).filter fun n => (lookupOpcode opc (BitVec.ofNat 8 n)).isNone).length = 245 ∧
    lookupOpcode opc 0xFF#8 = none ∧
    (∀ s : State, s.run = .running → s.pc < 256 → (∀ m, opc m ≠ s.mem.get s.pc) →
      stepWith opc s = .next { s with run := .aborted, abort := causeRecord (.unknownOpcode (s.mem.get s.pc)) })

/-- 30_encoding.md §4 (lengths): the length follows from the mnemonic the opcode byte names, 1, 2 or 3 bytes, and decoding consumes exactly that many. -/
def Obligations.LengthFollowsFromTheOpcode : Prop :=
  instrLength .halt = 1 ∧
  (∀ m ∈ [Mnemonic.printReg, .push, .pop, .jump, .jumpIfEqual, .jumpIfNotEqual], instrLength m = 2) ∧
  (∀ m ∈ [Mnemonic.loadImmediate, .add, .multiply, .compare], instrLength m = 3) ∧
  (∀ (opc : OpcodeMap) (op b1 b2 : Byte) (tail : List Byte) (m : Mnemonic), lookupOpcode opc op = some m →
    ∃ i, decodeBytesWith opc (op :: b1 :: b2 :: tail) = .ok (i, (op :: b1 :: b2 :: tail).drop (instrLength m)) ∧ mnemonicOf i = m) ∧
  (∀ (opc : OpcodeMap) (i : Instr), (encodeWith opc i).length = instrLength (mnemonicOf i))

/-- R79: a register operand is the whole byte; 8 to 255 raise InvalidRegister at the access, not at decode; a byte no access uses is never
checked: the operand of a jump not taken, and the unused bytes after a shorter instruction. -/
def Obligations.RegisterOperandsAreCheckedOnlyAtTheAccess : Prop :=
  (∀ (s : State) (i : Fin 8), s.getReg (BitVec.ofNat 8 i.val) = .ok s.regs[i]) ∧
  (∀ (s : State) (b : Byte), 8 ≤ b.toNat → s.getReg b = .error (.invalidRegister b) ∧
    ∀ v, s.setReg b v = .error (.invalidRegister b)) ∧
  (∀ (opc : OpcodeMap) (op : Byte) (m : Mnemonic), lookupOpcode opc op = some m → ∀ b1 b2,
    ∃ i, decodeWith opc op b1 b2 = .ok i ∧
      (operandCount m ≤ 1 → ∀ b2', decodeWith opc op b1 b2' = .ok i) ∧
      (operandCount m = 0 → ∀ b1' b2', decodeWith opc op b1' b2' = .ok i)) ∧
  (∀ (s : State) (b : Byte), s.flags.equal = false → exec (.jumpIfEqual b) s = .next { s with pc := s.pc + 2 }) ∧
  (∀ (s : State) (b : Byte), s.flags.equal = true → exec (.jumpIfNotEqual b) s = .next { s with pc := s.pc + 2 })

/-! ### Registers, memory, ALU -/

/-- R22: `get` and `set` fail with InvalidRegister exactly for an index outside 0 to 7, unmasked; otherwise they read and write that register alone. -/
def Obligations.RegisterAccessContract : Prop :=
  (∀ (s : State) (b v : Byte), 8 ≤ b.toNat →
    s.getReg b = .error (.invalidRegister b) ∧ s.setReg b v = .error (.invalidRegister b)) ∧
  (∀ (s : State) (i : Fin 8) (v : Byte), s.getReg (BitVec.ofNat 8 i.val) = .ok s.regs[i] ∧
    ∃ t, s.setReg (BitVec.ofNat 8 i.val) v = .ok t ∧ t.regs[i] = v ∧ (∀ k : Fin 8, k ≠ i → t.regs[k] = s.regs[k]) ∧
      t = { s with regs := t.regs })

/-- R51: a read gives the byte at an address inside memory and raises OutOfBounds for every other integer. -/
def Obligations.MemReadContract : Prop :=
  ∀ (s : State) (addr : Int),
    (0 ≤ addr ∧ addr < (Config.memSize : Int) → s.memRead addr = .ok (s.mem.get addr.toNat)) ∧
    (addr < 0 ∨ (Config.memSize : Int) ≤ addr → s.memRead addr = .error (.outOfBounds addr))

/-- R52: a write inside memory sets that byte, no other byte and no other state; outside it raises OutOfBounds; PUSH is the only
instruction that writes memory. The memory is in its canonical form. -/
def Obligations.MemWriteContract : Prop :=
  (∀ (s : State) (addr : Int) (v : Byte), s.mem.wf = true → 0 ≤ addr ∧ addr < (Config.memSize : Int) →
    ∃ t, s.memWrite addr v = .ok t ∧ t.mem.get addr.toNat = v ∧ (∀ a, a ≠ addr.toNat → t.mem.get a = s.mem.get a) ∧
      t = { s with mem := t.mem }) ∧
  (∀ (s : State) (addr : Int) (v : Byte), addr < 0 ∨ (Config.memSize : Int) ≤ addr →
    s.memWrite addr v = .error (.outOfBounds addr)) ∧
  (∀ (i : Instr) (s t : State), exec i s = .next t → (∀ r, i ≠ .push r) → t.mem = s.mem)

/-- Equal memories are equal data: two memories in canonical form that read the same everywhere are the same list (the model's own form, log 14). -/
def Obligations.CanonicalMemoriesThatReadEqualAreEqual : Prop :=
  ∀ m m' : Memory, m.wf = true → m'.wf = true → (∀ a, m.get a = m'.get a) → m = m'

/-- R130: Add is (a + b) mod wordRange and Multiply is (a * b) mod wordRange, exact before the reduction. -/
def Obligations.AluAddsAndMultipliesModuloWordRange : Prop :=
  (∀ a b : Byte, (alu .add a b).toNat = (a.toNat + b.toNat) % 256) ∧
  (∀ a b : Byte, (alu .multiply a b).toNat = a.toNat * b.toNat % 256)

/-- 42_alu.md §1, the laws of Add and Multiply (derived there); `a - 1` is subtraction of bytes, modulo 256. -/
def Obligations.AluLaws : Prop :=
  ∀ a b c : Byte,
    alu .add a b = alu .add b a ∧ alu .add (alu .add a b) c = alu .add a (alu .add b c) ∧ alu .add a 0 = a ∧
    alu .add a 255 = a - 1 ∧
    alu .multiply a b = alu .multiply b a ∧ alu .multiply (alu .multiply a b) c = alu .multiply a (alu .multiply b c) ∧
    alu .multiply a 0 = 0 ∧ alu .multiply a 1 = a ∧
    alu .multiply a (alu .add b c) = alu .add (alu .multiply a b) (alu .multiply a c)

/-! ### The instructions: result, frame, and where they abort -/

/-- 41_halt_load_print.md, HALT: `run` becomes HALTED and nothing else changes; that `pc` stays is decision D6 (log 6). A HALT in the last two bytes of
memory does not halt: the fetch faults first (decision D7, log 7). -/
def Obligations.HaltEntersHalted : Prop :=
  (∀ s : State, exec .halt s = .next { s with run := .halted }) ∧
  (∀ (opc : OpcodeMap) (s : State), opcodeMapLegal opc → s.run = .running → s.mem.get s.pc = opc .halt →
    (s.pc ≤ 253 → stepWith opc s = .next { s with run := .halted }) ∧
    (s.pc = 254 ∨ s.pc = 255 →
      stepWith opc s = .next { s with run := .aborted, abort := causeRecord (.outOfBounds 256) }))

/-- R122: LOAD_IMMEDIATE. The opcode byte is the parameter OPC. -/
def Obligations.LoadImmediateWritesTheValue : Prop :=
  (∀ (s : State) (i : Fin 8) (v : Byte), ∃ t, exec (.loadImmediate (BitVec.ofNat 8 i.val) v) s = .next t ∧
    t.reg i = v ∧ (∀ k, k ≠ i → t.reg k = s.reg k) ∧ t.pc = s.pc + 3 ∧ t = { s with regs := t.regs, pc := t.pc }) ∧
  (∀ (s : State) (b v : Byte), 8 ≤ b.toNat → abortsWith (.loadImmediate b v) s (.invalidRegister b)) ∧
  (∀ (opc : OpcodeMap) (b v : Byte), encodeWith opc (.loadImmediate b v) = [opc .loadImmediate, b, v])

/-- 41_halt_load_print.md, PRINT_REG: one value is appended to OUT (as a byte: decision D12, log 12) and nothing else changes but `pc`. -/
def Obligations.PrintRegAppendsTheValue : Prop :=
  (∀ (s : State) (i : Fin 8), exec (.printReg (BitVec.ofNat 8 i.val)) s =
    .next { s with out := s.out ++ [s.reg i], pc := s.pc + 2 }) ∧
  (∀ (s : State) (b : Byte), 8 ≤ b.toNat → abortsWith (.printReg b) s (.invalidRegister b))

/-- 42_alu.md, ADD: the sum modulo 256 in the first register, no flag written; the first operand is examined first (decision D9, log 9). -/
def Obligations.AddWritesTheSum : Prop :=
  (∀ (s : State) (i j : Fin 8), ∃ t, exec (.add (BitVec.ofNat 8 i.val) (BitVec.ofNat 8 j.val)) s = .next t ∧
    (t.reg i).toNat = ((s.reg i).toNat + (s.reg j).toNat) % 256 ∧ (∀ k, k ≠ i → t.reg k = s.reg k) ∧
    t.pc = s.pc + 3 ∧ t = { s with regs := t.regs, pc := t.pc }) ∧
  (∀ (s : State) (a b : Byte), 8 ≤ a.toNat → abortsWith (.add a b) s (.invalidRegister a)) ∧
  (∀ (s : State) (a b : Byte), a.toNat < 8 → 8 ≤ b.toNat → abortsWith (.add a b) s (.invalidRegister b))

/-- R135: MULTIPLY. The opcode byte is the parameter OPC. -/
def Obligations.MultiplyWritesTheProduct : Prop :=
  (∀ (s : State) (i j : Fin 8), ∃ t, exec (.multiply (BitVec.ofNat 8 i.val) (BitVec.ofNat 8 j.val)) s = .next t ∧
    (t.reg i).toNat = (s.reg i).toNat * (s.reg j).toNat % 256 ∧ (∀ k, k ≠ i → t.reg k = s.reg k) ∧
    t.pc = s.pc + 3 ∧ t = { s with regs := t.regs, pc := t.pc }) ∧
  (∀ (s : State) (a b : Byte), 8 ≤ a.toNat → abortsWith (.multiply a b) s (.invalidRegister a)) ∧
  (∀ (s : State) (a b : Byte), a.toNat < 8 → 8 ≤ b.toNat → abortsWith (.multiply a b) s (.invalidRegister b)) ∧
  (∀ (opc : OpcodeMap) (a b : Byte), encodeWith opc (.multiply a b) = [opc .multiply, a, b])

/-- 43_stack.md, PUSH: the value goes to the address PUSH computes, `sp` becomes that address, and every other byte reads as before. The order of the
checks is decision D9, that nothing is committed on a fault is D8 (log 8, 9). -/
def Obligations.PushStoresBelowTheStackPointer : Prop :=
  (∀ (s : State) (i : Fin 8), s.mem.wf = true → 1 ≤ s.sp → s.sp ≤ 256 →
    ∃ t, exec (.push (BitVec.ofNat 8 i.val)) s = .next t ∧
      (∀ a : Nat, pushAddr s = (a : Int) → t.mem.get a = s.reg i ∧ t.sp = a ∧ (∀ b, b ≠ a → t.mem.get b = s.mem.get b)) ∧
      t.sp = s.sp - 1 ∧ t.pc = s.pc + 2 ∧ t = { s with mem := t.mem, sp := t.sp, pc := t.pc }) ∧
  (∀ (s : State) (b : Byte), 8 ≤ b.toNat → abortsWith (.push b) s (.invalidRegister b)) ∧
  (∀ (s : State) (b : Byte), b.toNat < 8 → s.sp = 0 → abortsWith (.push b) s (.outOfBounds (-1)))

/-- 43_stack.md, POP: the byte at `sp` goes to the register, `sp` goes up by one, memory is unchanged. The address is examined before the
register (decision D9, log 9). -/
def Obligations.PopLoadsFromTheStackPointer : Prop :=
  (∀ (s : State) (i : Fin 8), s.sp < 256 →
    ∃ t, exec (.pop (BitVec.ofNat 8 i.val)) s = .next t ∧ t.reg i = s.mem.get s.sp ∧ (∀ k, k ≠ i → t.reg k = s.reg k) ∧
      t.sp = s.sp + 1 ∧ t.pc = s.pc + 2 ∧ t = { s with regs := t.regs, sp := t.sp, pc := t.pc }) ∧
  (∀ (s : State) (b : Byte), s.sp = 256 → abortsWith (.pop b) s (.outOfBounds 256)) ∧
  (∀ (s : State) (b : Byte), s.sp < 256 → 8 ≤ b.toNat → abortsWith (.pop b) s (.invalidRegister b))

/-- R151: JUMP. The opcode byte is the parameter OPC. -/
def Obligations.JumpGoesExactlyToTheRegister : Prop :=
  (∀ (s : State) (i : Fin 8), exec (.jump (BitVec.ofNat 8 i.val)) s = .next { s with pc := (s.reg i).toNat }) ∧
  (∀ (s : State) (b : Byte), 8 ≤ b.toNat → abortsWith (.jump b) s (.invalidRegister b)) ∧
  (∀ (opc : OpcodeMap) (b : Byte), encodeWith opc (.jump b) = [opc .jump, b])

/-- 44_compare_and_jumps.md §3, COMPARE: exactly one flag, by the unsigned order, whatever the flags were; the registers keep their
values. On a fault the flags keep theirs (decision D8, log 8). -/
def Obligations.CompareSetsExactlyOneFlag : Prop :=
  (∀ (s : State) (i j : Fin 8), exec (.compare (BitVec.ofNat 8 i.val) (BitVec.ofNat 8 j.val)) s =
    .next { s with
      flags := { equal := decide ((s.reg i).toNat = (s.reg j).toNat), less := decide ((s.reg i).toNat < (s.reg j).toNat),
                 greater := decide ((s.reg j).toNat < (s.reg i).toNat) },
      pc := s.pc + 3 }) ∧
  (∀ (s : State) (a b : Byte), 8 ≤ a.toNat → abortsWith (.compare a b) s (.invalidRegister a)) ∧
  (∀ (s : State) (a b : Byte), a.toNat < 8 → 8 ≤ b.toNat → abortsWith (.compare a b) s (.invalidRegister b))

/-- 44_compare_and_jumps.md §4, JUMP_IF_EQUAL: taken exactly when E is set; the operand is examined only then (decision D9, log 9). -/
def Obligations.JumpIfEqualFollowsTheEqualFlag : Prop :=
  (∀ (s : State) (i : Fin 8), s.flags.equal = true →
    exec (.jumpIfEqual (BitVec.ofNat 8 i.val)) s = .next { s with pc := (s.reg i).toNat }) ∧
  (∀ (s : State) (b : Byte), s.flags.equal = false → exec (.jumpIfEqual b) s = .next { s with pc := s.pc + 2 }) ∧
  (∀ (s : State) (b : Byte), s.flags.equal = true → 8 ≤ b.toNat → abortsWith (.jumpIfEqual b) s (.invalidRegister b))

/-- R157: JUMP_IF_NOT_EQUAL. The opcode byte is the parameter OPC. -/
def Obligations.JumpIfNotEqualFollowsTheEqualFlag : Prop :=
  (∀ (s : State) (i : Fin 8), s.flags.equal = false →
    exec (.jumpIfNotEqual (BitVec.ofNat 8 i.val)) s = .next { s with pc := (s.reg i).toNat }) ∧
  (∀ (s : State) (b : Byte), s.flags.equal = true → exec (.jumpIfNotEqual b) s = .next { s with pc := s.pc + 2 }) ∧
  (∀ (s : State) (b : Byte), s.flags.equal = false → 8 ≤ b.toNat → abortsWith (.jumpIfNotEqual b) s (.invalidRegister b)) ∧
  (∀ (opc : OpcodeMap) (b : Byte), encodeWith opc (.jumpIfNotEqual b) = [opc .jumpIfNotEqual, b])

/-! ### Aborts -/

/-- 60_exceptions.md §1 and §3: abort entry makes `run` ABORTED and writes the record; nothing else changes (decision D8). The codes are decision D10. -/
def Obligations.AbortEntryWritesTheRecord : Prop :=
  ∀ (s : State) (c : Cause),
    takeAbort c s = { s with run := .aborted, abort := (takeAbort c s).abort } ∧
    (∀ op, c = .unknownOpcode op → (takeAbort c s).abort = { code := 1, info := some (op.toNat : Int) }) ∧
    (∀ addr, c = .outOfBounds addr → (takeAbort c s).abort = { code := 2, info := some addr }) ∧
    (∀ b, c = .invalidRegister b → (takeAbort c s).abort = { code := 3, info := some (b.toNat : Int) }) ∧
    (c = .unsupportedOperation → (takeAbort c s).abort = { code := 4, info := none })

/-- 60_exceptions.md §2, items 1 to 4 (decisions D7 and D9, log 7 and 9): the fetch's faults in their order. -/
def Obligations.FetchFaultsInTheirOrder : Prop :=
  ∀ (opc : OpcodeMap) (s : State), s.run = .running →
    (256 ≤ s.pc →
      stepWith opc s = .next { s with run := .aborted, abort := causeRecord (.outOfBounds (s.pc : Int)) }) ∧
    (s.pc < 256 → lookupOpcode opc (s.mem.get s.pc) = none →
      stepWith opc s = .next { s with run := .aborted, abort := causeRecord (.unknownOpcode (s.mem.get s.pc)) }) ∧
    (s.pc = 254 ∨ s.pc = 255 → lookupOpcode opc (s.mem.get s.pc) ≠ none →
      stepWith opc s = .next { s with run := .aborted, abort := causeRecord (.outOfBounds 256) })

/-- 40_engine_and_dispatch.md §2 (precise aborts, decision D8, log 8): a step that ends in ABORTED changed nothing but `run` and `abort`. -/
def Obligations.AbortedStepCommitsNothing : Prop :=
  ∀ (opc : OpcodeMap) (s t : State), stepWith opc s = .next t → t.run = .aborted →
    t = { s with run := .aborted, abort := t.abort }

/-- 60_exceptions.md §1, the table of own faults: a well-formed instruction aborts only as a PUSH or a POP whose address is outside memory. -/
def Obligations.WellFormedInstructionsAbortOnlyOnTheStack : Prop :=
  ∀ (i : Instr) (s t : State), wellFormed i = true → s.run ≠ .aborted → exec i s = .next t → t.run = .aborted →
    (∃ r, i = .push r ∧ (s.sp = 0 ∨ 256 < s.sp)) ∨ (∃ r, i = .pop r ∧ 256 ≤ s.sp)

/-- 60_exceptions.md §1 (decisions D10 and D19, log 10 and 17): no step records the code 4 of UnsupportedOperation. -/
def Obligations.UnsupportedOperationIsNeverRaised : Prop :=
  ∀ (opc : OpcodeMap) (s t : State), stepWith opc s = .next t → t.abort ≠ s.abort →
    t.abort.code = 1 ∨ t.abort.code = 2 ∨ t.abort.code = 3

/-! ### Rules about the whole machine -/

/-- Every step keeps the invariant `Inv`, for every opcode map. Of its clauses, the flag triple is 10_state.md §5. The canonical list of memory is the
model's choice (log 14, DESIGN CHOICE); that `pc` and `sp` are integers from 0 to 256 is decision D5 (log 5); the codes 1 to 3 of the abort record are
decision D10 (log 10), and its information values rest on D7 and D8 too (log 7, 8). -/
def Obligations.EveryStepKeepsTheInvariant : Prop :=
  ∀ (opc : OpcodeMap) (s t : State), Inv s → stepWith opc s = .next t → Inv t

/-- R106: a completed instruction advances `pc` by its opcode's length, whatever the operands, registers and flags, but for jumps; the two conditional
jumps choose by E alone. -/
def Obligations.PcAdvanceMatchesTheLength : Prop :=
  ∀ (opc : OpcodeMap) (s t : State) (i : Instr), fetch opc s = .ok i → stepWith opc s = .next t → t.run = .running →
    match i with
    | .jump r => ∃ k, r = regByte k ∧ t.pc = (s.reg k).toNat
    | .jumpIfEqual r =>
      if s.flags.equal then ∃ k, r = regByte k ∧ t.pc = (s.reg k).toNat else t.pc = s.pc + instrLength .jumpIfEqual
    | .jumpIfNotEqual r =>
      if s.flags.equal then t.pc = s.pc + instrLength .jumpIfNotEqual else ∃ k, r = regByte k ∧ t.pc = (s.reg k).toNat
    | j => t.pc = s.pc + instrLength (mnemonicOf j)

/-- R29: at every point between steps the flag triple is one of four values; NONE until a COMPARE executes, exactly one flag from then on. -/
def Obligations.FlagTripleStaysOneOfFour : Prop :=
  State.reset.flags = flagsNone ∧
  (∀ (opc : OpcodeMap) (s t : State), stepWith opc s = .next t →
    (flagsLegal s.flags = true → flagsLegal t.flags = true) ∧
    (exactlyOneFlag s.flags = true → exactlyOneFlag t.flags = true) ∧
    (∀ a b, fetch opc s = .ok (.compare a b) → t.run = .running → exactlyOneFlag t.flags = true) ∧
    ((∀ a b, fetch opc s ≠ .ok (.compare a b)) → t.flags = s.flags)) ∧
  (∀ f : Flags, flagsLegal f = true ↔
    f = { equal := false, less := false, greater := false } ∨ f = { equal := true, less := false, greater := false } ∨
    f = { equal := false, less := true, greater := false } ∨ f = { equal := false, less := false, greater := true })

/-- 10_state.md §2 to §6, 20_memory.md §4: which instruction may change which state. `run` changes only by HALT, to HALTED, or by an abort; the record
only by an abort; `pc` only by a completed instruction other than HALT, that HALT and an abort keep it being decisions D6 and D8 (log 6, 8). -/
def Obligations.EachStateHasItsOnlyWriters : Prop :=
  ∀ (i : Instr) (s t : State), exec i s = .next t →
    (∀ k, t.reg k ≠ s.reg k → regByte k ∈ writtenRegs i) ∧
    (t.sp ≠ s.sp → ∃ r, i = .push r ∨ i = .pop r) ∧
    (t.flags ≠ s.flags → ∃ a b, i = .compare a b) ∧
    (t.mem ≠ s.mem → ∃ r, i = .push r) ∧
    (t.out ≠ s.out → ∃ k, i = .printReg (regByte k) ∧ t.out = s.out ++ [s.reg k]) ∧
    (t.run ≠ s.run → (i = .halt ∧ t.run = .halted) ∨ t.run = .aborted) ∧
    (t.abort ≠ s.abort → t.run = .aborted) ∧
    (t.pc ≠ s.pc → i ≠ .halt ∧ t.run = s.run ∧ t.abort = s.abort)

/-- 41_halt_load_print.md: HALT is the only way into HALTED. -/
def Obligations.OnlyHaltEntersHalted : Prop :=
  ∀ (opc : OpcodeMap) (s t : State), stepWith opc s = .next t → (t.run = .halted ↔ fetch opc s = .ok .halt)

/-- 10_state.md §6: along any run the output stream only grows, by at most one value a step. -/
def Obligations.OutputOnlyGrows : Prop :=
  ∀ (n : Nat) (s t : State), Host.Core.run Sys2Proof.core n s = .next t →
    s.out <+: t.out ∧ t.out.length ≤ s.out.length + n

/-- 44_compare_and_jumps.md §4, 10_state.md §5: L and G influence nothing. Two states that differ only there run alike for any number of steps, and differ
only there afterwards. -/
def Obligations.LessAndGreaterInfluenceNothing : Prop :=
  ∀ (n : Nat) (s s' t : State), sameButLessGreater s s' → Host.Core.run Sys2Proof.core n s = .next t →
    ∃ t', Host.Core.run Sys2Proof.core n s' = .next t' ∧ sameButLessGreater t t'

/-- R64: a store is seen by every later instruction fetch. After a completed PUSH, any step whose three bytes lie in the memory the PUSH left runs the
pushed byte wherever it fetches that address, as opcode or as operand, and the old bytes elsewhere. -/
def Obligations.FetchSeesThePushedByte : Prop :=
  ∀ (opc : OpcodeMap) (s t u : State) (i : Fin 8) (rd : Nat → Byte), s.mem.wf = true → 1 ≤ s.sp → s.sp ≤ 256 →
    exec (.push (BitVec.ofNat 8 i.val)) s = .next t →
    rd = (fun a => if a = s.sp - 1 then s.reg i else s.mem.get a) →
    u.mem = t.mem → u.run = .running → u.pc + 2 < 256 →
    (∀ k, decodeWith opc (rd u.pc) (rd (u.pc + 1)) (rd (u.pc + 2)) = .ok k → stepWith opc u = exec k u) ∧
    (∀ e, decodeWith opc (rd u.pc) (rd (u.pc + 1)) (rd (u.pc + 2)) = .error e →
      stepWith opc u = .next { u with run := .aborted, abort := causeRecord (.unknownOpcode (rd u.pc)) })

/-- 43_stack.md, the round-trip law: a PUSH followed immediately by a POP, two steps, unless the pushed byte lands on the POP's own bytes. -/
def Obligations.PushThenPopRestores : Prop :=
  ∀ (opc : OpcodeMap) (s : State) (i j : Fin 8), opcodeMapLegal opc → s.run = .running → s.mem.wf = true → 1 ≤ s.sp → s.sp ≤ 256 →
    s.pc + 4 < 256 → s.mem.get s.pc = opc .push → s.mem.get (s.pc + 1) = BitVec.ofNat 8 i.val →
    s.mem.get (s.pc + 2) = opc .pop → s.mem.get (s.pc + 3) = BitVec.ofNat 8 j.val →
    s.sp - 1 ≠ s.pc + 2 → s.sp - 1 ≠ s.pc + 3 →
    ∃ t u, stepWith opc s = .next t ∧ stepWith opc t = .next u ∧ u.reg j = s.reg i ∧ (∀ k, k ≠ j → u.reg k = s.reg k) ∧
      u.sp = s.sp ∧ u.pc = s.pc + 4 ∧ u = { s with regs := u.regs, pc := u.pc, mem := u.mem }

/-- 43_stack.md (last in, first out): n PUSHes leave their values from the new `sp` up in reverse order, and every other byte as before. -/
def Obligations.PushesStandInReverseOrder : Prop :=
  ∀ (rs : List (Fin 8)) (s : State), s.mem.wf = true → rs.length ≤ s.sp → s.sp ≤ 256 →
    ∃ t, execAll (rs.map fun i => .push (BitVec.ofNat 8 i.val)) s = .next t ∧ t.sp = s.sp - rs.length ∧
      (∀ k, (h : k < rs.length) → t.mem.get (t.sp + k) = s.reg (rs[rs.length - 1 - k])) ∧
      (∀ a, a < t.sp ∨ s.sp ≤ a → t.mem.get a = s.mem.get a) ∧
      t = { s with mem := t.mem, sp := t.sp, pc := s.pc + 2 * rs.length }

/-- 44_compare_and_jumps.md §2, 40_engine_and_dispatch.md §2: a JUMP to its own address runs forever and changes nothing. -/
def Obligations.JumpToItselfNeverEnds : Prop :=
  ∀ (s : State) (i : Fin 8), s.run = .running → fetch opcodeOf s = .ok (.jump (BitVec.ofNat 8 i.val)) →
    (s.reg i).toNat = s.pc → ∀ n, Host.Core.run Sys2Proof.core n s = .next s ∧ runFor n s = .exhausted s

/-- 40_engine_and_dispatch.md §2, 70_reset_and_hazards.md §3 (decision D18): a run ends exactly when `run` leaves RUNNING; a budget that runs out
leaves it RUNNING, and a larger budget does not change an end that was reached. -/
def Obligations.BudgetedRunEndsOnlyInTerminalStates : Prop :=
  ∀ (k : Nat) (s t : State),
    (runFor k s = .exhausted t → t.run = .running ∧ Host.Core.run Sys2Proof.core k s = .next t) ∧
    (runFor k s = .ended t → runEnded t ∧ ∀ j, runFor (k + j) s = .ended t)
end

