-- ==== Sys2Proof/Laws/Decode.lean ====
section
/-! SUPPORT. The look-up of an opcode byte in a legal map. -/

namespace Sys2Proof

theorem mem_allMnemonics (m : Mnemonic) : m ∈ allMnemonics := by
  cases m <;> decide

theorem opcodeOf_legal : opcodeMapLegal opcodeOf := by
  refine ⟨?_, ?_⟩
  · intro a b h
    revert h
    cases a <;> cases b <;> decide
  · intro m; cases m <;> decide

/-- A byte the look-up finds is that mnemonic's opcode. -/
theorem lookupOpcode_some {opc : OpcodeMap} {op : Byte} {m : Mnemonic} (h : lookupOpcode opc op = some m) : opc m = op := by
  simpa using List.find?_some h

/-- A byte the look-up does not find is no mnemonic's opcode. -/
theorem lookupOpcode_none {opc : OpcodeMap} {op : Byte} : lookupOpcode opc op = none ↔ ∀ m, opc m ≠ op := by
  simp [lookupOpcode, mem_allMnemonics]

/-- In a map of distinct bytes the look-up finds every mnemonic by its opcode. -/
theorem lookupOpcode_opc {opc : OpcodeMap} (h : Function.Injective opc) (m : Mnemonic) :
    lookupOpcode opc (opc m) = some m := by
  cases hl : lookupOpcode opc (opc m) with
  | none => exact absurd rfl (lookupOpcode_none.mp hl m)
  | some k => rw [h (lookupOpcode_some hl)]

end Sys2Proof
end

