-- ==== Sys2Proof/Laws/Memory.lean ====
section
/-! SUPPORT. Memory: the canonical form is kept by every operation, and what a read gives after a write. -/

namespace Sys2Proof.Machine

theorem Memory.wfFrom_cons {lo b : Nat} {w : Byte} {m : Memory} :
    Memory.wfFrom lo ((b, w) :: m) = true ↔
      lo ≤ b ∧ b < Config.memSize ∧ w ≠ Config.unlistedByte ∧ Memory.wfFrom (b + 1) m = true := by
  simp [Memory.wfFrom, and_assoc]

theorem Memory.wfFrom_mono {lo lo' : Nat} {m : Memory} (h : Memory.wfFrom lo m = true) (hle : lo' ≤ lo) :
    Memory.wfFrom lo' m = true := by
  cases m with
  | nil => rfl
  | cons c m =>
    obtain ⟨b, w⟩ := c
    rw [Memory.wfFrom_cons] at h ⊢
    exact ⟨by omega, h.2⟩

/-- Below the first listed address every byte reads as the reset contents. -/
theorem Memory.get_below {lo a : Nat} {m : Memory} (h : Memory.wfFrom lo m = true) (ha : a < lo) :
    m.get a = Config.unlistedByte := by
  induction m generalizing lo with
  | nil => rfl
  | cons c m ih =>
    obtain ⟨b, w⟩ := c
    rw [Memory.wfFrom_cons] at h
    rw [Memory.get, if_neg (by omega)]
    exact ih h.2.2.2 (by omega)

theorem Memory.wfFrom_set {lo a : Nat} {m : Memory} {v : Byte} (h : Memory.wfFrom lo m = true) (hlo : lo ≤ a)
    (ha : a < Config.memSize) : Memory.wfFrom lo (m.set a v) = true := by
  induction m generalizing lo with
  | nil =>
    by_cases hv : v = Config.unlistedByte
    · simp [Memory.set, Memory.wfFrom, hv]
    · simp [Memory.set, Memory.wfFrom, hv, hlo, ha]
  | cons c m ih =>
    obtain ⟨b, w⟩ := c
    have hc := Memory.wfFrom_cons.mp h
    rcases Nat.lt_trichotomy a b with hab | hab | hab
    · by_cases hv : v = Config.unlistedByte
      · simpa [Memory.set, hab, hv] using h
      · simp only [Memory.set, hab, hv, if_true, if_false]
        exact Memory.wfFrom_cons.mpr ⟨hlo, ha, hv, Memory.wfFrom_cons.mpr ⟨by omega, hc.2⟩⟩
    · subst hab
      by_cases hv : v = Config.unlistedByte
      · simpa [Memory.set, hv] using Memory.wfFrom_mono hc.2.2.2 (by omega)
      · simpa [Memory.set, hv] using Memory.wfFrom_cons.mpr ⟨hlo, ha, hv, hc.2.2.2⟩
    · have h1 : ¬ a < b := by omega
      have h2 : ¬ a = b := by omega
      simp only [Memory.set, h1, h2, if_false]
      exact Memory.wfFrom_cons.mpr ⟨hc.1, hc.2.1, hc.2.2.1, ih hc.2.2.2 (by omega)⟩

/-- A write inside memory keeps the canonical form. -/
theorem Memory.wf_set {a : Nat} {m : Memory} {v : Byte} (h : m.wf = true) (ha : a < Config.memSize) :
    (m.set a v).wf = true :=
  Memory.wfFrom_set h (Nat.zero_le a) ha

theorem Memory.get_set_from {lo a b : Nat} {m : Memory} {v : Byte} (h : Memory.wfFrom lo m = true) :
    (m.set a v).get b = if b = a then v else m.get b := by
  induction m generalizing lo with
  | nil =>
    by_cases hv : v = Config.unlistedByte <;> by_cases hb : b = a <;> simp [Memory.set, Memory.get, hv, hb]
  | cons c m ih =>
    obtain ⟨k, w⟩ := c
    have hc := Memory.wfFrom_cons.mp h
    rcases Nat.lt_trichotomy a k with hak | hak | hak
    · by_cases hv : v = Config.unlistedByte
      · by_cases hb : b = a
        · subst hb
          simpa [Memory.set, hak, hv] using
            Memory.get_below (Memory.wfFrom_cons.mpr ⟨Nat.le_refl k, hc.2⟩) hak
        · simp [Memory.set, hak, hv, hb]
      · by_cases hb : b = a <;> simp [Memory.set, Memory.get, hak, hv, hb]
    · subst hak
      by_cases hv : v = Config.unlistedByte
      · by_cases hb : b = a
        · subst hb
          simpa [Memory.set, hv] using Memory.get_below hc.2.2.2 (Nat.lt_succ_self b)
        · simp [Memory.set, Memory.get, hv, hb]
      · by_cases hb : b = a <;> simp [Memory.set, Memory.get, hv, hb]
    · have h1 : ¬ a < k := by omega
      have h2 : ¬ a = k := by omega
      simp only [Memory.set, Memory.get, h1, h2, if_false, ih hc.2.2.2]
      by_cases hb : b = k
      · have : ¬ b = a := by omega
        simp [hb, Ne.symm h2]
      · simp [hb]

/-- What a byte reads after a write: the byte written at that address, what it read before anywhere else. -/
theorem Memory.get_set {a b : Nat} {m : Memory} {v : Byte} (h : m.wf = true) :
    (m.set a v).get b = if b = a then v else m.get b :=
  Memory.get_set_from h

/-- Loading keeps the canonical form. -/
theorem Memory.wf_loadBytes {bs : List Byte} {a : Nat} {m : Memory} (h : m.wf = true)
    (hlen : a + bs.length ≤ Config.memSize) : (loadBytes bs a m).wf = true := by
  induction bs generalizing a m with
  | nil => exact h
  | cons b bs ih =>
    simp only [List.length_cons] at hlen
    exact ih (Memory.wf_set h (by omega)) (by omega)

end Sys2Proof.Machine
end

