-- ==== Sys2Proof/Laws/State.lean ====
section
/-! SUPPORT. One lemma per field per update of State, so that no proof unfolds a record update. -/

namespace Sys2Proof.Machine

@[simp] theorem State.withRegs_regs (s : State) (v : Vector Byte Config.numRegs) : (s.withRegs v).regs = v := rfl
@[simp] theorem State.withRegs_pc (s : State) (v : Vector Byte Config.numRegs) : (s.withRegs v).pc = s.pc := rfl
@[simp] theorem State.withRegs_sp (s : State) (v : Vector Byte Config.numRegs) : (s.withRegs v).sp = s.sp := rfl
@[simp] theorem State.withRegs_flags (s : State) (v : Vector Byte Config.numRegs) : (s.withRegs v).flags = s.flags := rfl
@[simp] theorem State.withRegs_mem (s : State) (v : Vector Byte Config.numRegs) : (s.withRegs v).mem = s.mem := rfl
@[simp] theorem State.withRegs_run (s : State) (v : Vector Byte Config.numRegs) : (s.withRegs v).run = s.run := rfl
@[simp] theorem State.withRegs_abort (s : State) (v : Vector Byte Config.numRegs) : (s.withRegs v).abort = s.abort := rfl
@[simp] theorem State.withRegs_out (s : State) (v : Vector Byte Config.numRegs) : (s.withRegs v).out = s.out := rfl

@[simp] theorem State.withPc_regs (s : State) (v : Nat) : (s.withPc v).regs = s.regs := rfl
@[simp] theorem State.withPc_pc (s : State) (v : Nat) : (s.withPc v).pc = v := rfl
@[simp] theorem State.withPc_sp (s : State) (v : Nat) : (s.withPc v).sp = s.sp := rfl
@[simp] theorem State.withPc_flags (s : State) (v : Nat) : (s.withPc v).flags = s.flags := rfl
@[simp] theorem State.withPc_mem (s : State) (v : Nat) : (s.withPc v).mem = s.mem := rfl
@[simp] theorem State.withPc_run (s : State) (v : Nat) : (s.withPc v).run = s.run := rfl
@[simp] theorem State.withPc_abort (s : State) (v : Nat) : (s.withPc v).abort = s.abort := rfl
@[simp] theorem State.withPc_out (s : State) (v : Nat) : (s.withPc v).out = s.out := rfl

@[simp] theorem State.withSp_regs (s : State) (v : Nat) : (s.withSp v).regs = s.regs := rfl
@[simp] theorem State.withSp_pc (s : State) (v : Nat) : (s.withSp v).pc = s.pc := rfl
@[simp] theorem State.withSp_sp (s : State) (v : Nat) : (s.withSp v).sp = v := rfl
@[simp] theorem State.withSp_flags (s : State) (v : Nat) : (s.withSp v).flags = s.flags := rfl
@[simp] theorem State.withSp_mem (s : State) (v : Nat) : (s.withSp v).mem = s.mem := rfl
@[simp] theorem State.withSp_run (s : State) (v : Nat) : (s.withSp v).run = s.run := rfl
@[simp] theorem State.withSp_abort (s : State) (v : Nat) : (s.withSp v).abort = s.abort := rfl
@[simp] theorem State.withSp_out (s : State) (v : Nat) : (s.withSp v).out = s.out := rfl

@[simp] theorem State.withFlags_regs (s : State) (v : Flags) : (s.withFlags v).regs = s.regs := rfl
@[simp] theorem State.withFlags_pc (s : State) (v : Flags) : (s.withFlags v).pc = s.pc := rfl
@[simp] theorem State.withFlags_sp (s : State) (v : Flags) : (s.withFlags v).sp = s.sp := rfl
@[simp] theorem State.withFlags_flags (s : State) (v : Flags) : (s.withFlags v).flags = v := rfl
@[simp] theorem State.withFlags_mem (s : State) (v : Flags) : (s.withFlags v).mem = s.mem := rfl
@[simp] theorem State.withFlags_run (s : State) (v : Flags) : (s.withFlags v).run = s.run := rfl
@[simp] theorem State.withFlags_abort (s : State) (v : Flags) : (s.withFlags v).abort = s.abort := rfl
@[simp] theorem State.withFlags_out (s : State) (v : Flags) : (s.withFlags v).out = s.out := rfl

@[simp] theorem State.withMem_regs (s : State) (v : Memory) : (s.withMem v).regs = s.regs := rfl
@[simp] theorem State.withMem_pc (s : State) (v : Memory) : (s.withMem v).pc = s.pc := rfl
@[simp] theorem State.withMem_sp (s : State) (v : Memory) : (s.withMem v).sp = s.sp := rfl
@[simp] theorem State.withMem_flags (s : State) (v : Memory) : (s.withMem v).flags = s.flags := rfl
@[simp] theorem State.withMem_mem (s : State) (v : Memory) : (s.withMem v).mem = v := rfl
@[simp] theorem State.withMem_run (s : State) (v : Memory) : (s.withMem v).run = s.run := rfl
@[simp] theorem State.withMem_abort (s : State) (v : Memory) : (s.withMem v).abort = s.abort := rfl
@[simp] theorem State.withMem_out (s : State) (v : Memory) : (s.withMem v).out = s.out := rfl

@[simp] theorem State.withRun_regs (s : State) (v : RunState) : (s.withRun v).regs = s.regs := rfl
@[simp] theorem State.withRun_pc (s : State) (v : RunState) : (s.withRun v).pc = s.pc := rfl
@[simp] theorem State.withRun_sp (s : State) (v : RunState) : (s.withRun v).sp = s.sp := rfl
@[simp] theorem State.withRun_flags (s : State) (v : RunState) : (s.withRun v).flags = s.flags := rfl
@[simp] theorem State.withRun_mem (s : State) (v : RunState) : (s.withRun v).mem = s.mem := rfl
@[simp] theorem State.withRun_run (s : State) (v : RunState) : (s.withRun v).run = v := rfl
@[simp] theorem State.withRun_abort (s : State) (v : RunState) : (s.withRun v).abort = s.abort := rfl
@[simp] theorem State.withRun_out (s : State) (v : RunState) : (s.withRun v).out = s.out := rfl

@[simp] theorem State.withAbort_regs (s : State) (v : AbortRecord) : (s.withAbort v).regs = s.regs := rfl
@[simp] theorem State.withAbort_pc (s : State) (v : AbortRecord) : (s.withAbort v).pc = s.pc := rfl
@[simp] theorem State.withAbort_sp (s : State) (v : AbortRecord) : (s.withAbort v).sp = s.sp := rfl
@[simp] theorem State.withAbort_flags (s : State) (v : AbortRecord) : (s.withAbort v).flags = s.flags := rfl
@[simp] theorem State.withAbort_mem (s : State) (v : AbortRecord) : (s.withAbort v).mem = s.mem := rfl
@[simp] theorem State.withAbort_run (s : State) (v : AbortRecord) : (s.withAbort v).run = s.run := rfl
@[simp] theorem State.withAbort_abort (s : State) (v : AbortRecord) : (s.withAbort v).abort = v := rfl
@[simp] theorem State.withAbort_out (s : State) (v : AbortRecord) : (s.withAbort v).out = s.out := rfl

@[simp] theorem State.withOut_regs (s : State) (v : List Byte) : (s.withOut v).regs = s.regs := rfl
@[simp] theorem State.withOut_pc (s : State) (v : List Byte) : (s.withOut v).pc = s.pc := rfl
@[simp] theorem State.withOut_sp (s : State) (v : List Byte) : (s.withOut v).sp = s.sp := rfl
@[simp] theorem State.withOut_flags (s : State) (v : List Byte) : (s.withOut v).flags = s.flags := rfl
@[simp] theorem State.withOut_mem (s : State) (v : List Byte) : (s.withOut v).mem = s.mem := rfl
@[simp] theorem State.withOut_run (s : State) (v : List Byte) : (s.withOut v).run = s.run := rfl
@[simp] theorem State.withOut_abort (s : State) (v : List Byte) : (s.withOut v).abort = s.abort := rfl
@[simp] theorem State.withOut_out (s : State) (v : List Byte) : (s.withOut v).out = v := rfl

/-- Two states are equal when every field is. -/
theorem State.ext_fields {s t : State} (h1 : s.regs = t.regs) (h2 : s.pc = t.pc) (h3 : s.sp = t.sp) (h4 : s.flags = t.flags)
    (h5 : s.mem = t.mem) (h6 : s.run = t.run) (h7 : s.abort = t.abort) (h8 : s.out = t.out) : s = t := by
  cases s; cases t; simp_all

end Sys2Proof.Machine
end

