-- ==== Sys2Proof/Laws/Ops.lean ====
section
/-! SUPPORT. One lemma per shared operation: everything it can answer. -/

namespace Sys2Proof.Machine

@[simp] theorem regIndex_regByte (i : Fin Config.numRegs) : regIndex (regByte i) = some i := by
  revert i; decide

theorem regIndex_of_ge {b : Byte} (h : Config.numRegs ≤ b.toNat) : regIndex b = none := by
  simp [regIndex, Nat.not_lt.mpr h]

theorem regIndex_eq_none {b : Byte} : regIndex b = none ↔ Config.numRegs ≤ b.toNat := by
  by_cases h : b.toNat < Config.numRegs <;> simp [regIndex, h]
  omega

theorem regIndex_eq_some {b : Byte} {i : Fin Config.numRegs} : regIndex b = some i ↔ b = regByte i := by
  constructor
  · intro h
    by_cases hb : b.toNat < Config.numRegs
    · simp only [regIndex, hb, dif_pos, Option.some.injEq] at h
      subst h
      exact BitVec.eq_of_toNat_eq (by simp [regByte])
    · simp [regIndex, hb] at h
  · rintro rfl; simp

/-- An operand byte names a register or is out of range. -/
theorem operand_cases (b : Byte) :
    (∃ i, b = regByte i) ∨ (Config.numRegs ≤ b.toNat ∧ regIndex b = none) := by
  cases h : regIndex b with
  | some i => exact .inl ⟨i, regIndex_eq_some.mp h⟩
  | none => exact .inr ⟨regIndex_eq_none.mp h, rfl⟩

@[simp] theorem State.getReg_regByte (s : State) (i : Fin Config.numRegs) : s.getReg (regByte i) = .ok (s.reg i) := by
  simp [State.getReg]

theorem State.getReg_of_none {s : State} {b : Byte} (h : regIndex b = none) : s.getReg b = .error (.invalidRegister b) := by
  simp [State.getReg, h]

@[simp] theorem State.setReg_regByte (s : State) (i : Fin Config.numRegs) (v : Byte) :
    s.setReg (regByte i) v = .ok (s.withRegs (s.regs.set i v)) := by
  simp [State.setReg, State.withRegs]

theorem State.setReg_of_none {s : State} {b v : Byte} (h : regIndex b = none) :
    s.setReg b v = .error (.invalidRegister b) := by
  simp [State.setReg, h]

/-- What the registers hold after one is set. -/
theorem State.reg_set (s : State) (i j : Fin Config.numRegs) (v : Byte) :
    (s.withRegs (s.regs.set i v)).reg j = if j = i then v else s.reg j := by
  by_cases h : j = i
  · subst h; simp [State.reg]
  · have : (i : Nat) ≠ j := fun e => h (Fin.ext e.symm)
    simp [State.reg, h, Vector.getElem_set_ne, this]

theorem State.memRead_of_in {s : State} {addr : Int} (h : inMemory addr) :
    s.memRead addr = .ok (s.mem.get addr.toNat) := by
  rw [State.memRead, if_pos h]

theorem State.memRead_of_out {s : State} {addr : Int} (h : ¬ inMemory addr) :
    s.memRead addr = .error (.outOfBounds addr) := by
  rw [State.memRead, if_neg h]

theorem State.memWrite_of_in {s : State} {addr : Int} {v : Byte} (h : inMemory addr) :
    s.memWrite addr v = .ok (s.withMem (s.mem.set addr.toNat v)) := by
  rw [State.memWrite, if_pos h]

theorem State.memWrite_of_out {s : State} {addr : Int} {v : Byte} (h : ¬ inMemory addr) :
    s.memWrite addr v = .error (.outOfBounds addr) := by
  rw [State.memWrite, if_neg h]

/-- A write through the bounds check keeps the canonical form. -/
theorem State.memWrite_wf {s t : State} {addr : Int} {v : Byte} (hw : s.mem.wf = true)
    (h : s.memWrite addr v = .ok t) : t.mem.wf = true := by
  by_cases hin : inMemory addr
  · rw [State.memWrite_of_in hin, Except.ok.injEq] at h
    subst h
    obtain ⟨h0, h1⟩ := hin
    exact Memory.wf_set hw (by omega)
  · rw [State.memWrite_of_out hin] at h
    cases h

@[simp] theorem takeAbort_regs (c : Cause) (s : State) : (takeAbort c s).regs = s.regs := rfl
@[simp] theorem takeAbort_pc (c : Cause) (s : State) : (takeAbort c s).pc = s.pc := rfl
@[simp] theorem takeAbort_sp (c : Cause) (s : State) : (takeAbort c s).sp = s.sp := rfl
@[simp] theorem takeAbort_flags (c : Cause) (s : State) : (takeAbort c s).flags = s.flags := rfl
@[simp] theorem takeAbort_mem (c : Cause) (s : State) : (takeAbort c s).mem = s.mem := rfl
@[simp] theorem takeAbort_run (c : Cause) (s : State) : (takeAbort c s).run = .aborted := rfl
@[simp] theorem takeAbort_abort (c : Cause) (s : State) : (takeAbort c s).abort = causeRecord c := rfl
@[simp] theorem takeAbort_out (c : Cause) (s : State) : (takeAbort c s).out = s.out := rfl

@[simp] theorem State.emit_eq (s : State) (v : Byte) : s.emit v = s.withOut (s.out ++ [v]) := rfl

@[simp] theorem commit_error (s : State) (c : Cause) : commit s (.error c) = .next (takeAbort c s) := rfl
@[simp] theorem commit_ok (s t : State) (r : Result) : commit s (.ok (t, r)) = .next (applyResult t r) := rfl
@[simp] theorem applyResult_continueBy (s : State) (d : Nat) : applyResult s (.continueBy d) = s.withPc (s.pc + d) := rfl
@[simp] theorem applyResult_redirected (s : State) (a : Nat) : applyResult s (.redirected a) = s.withPc a := rfl
@[simp] theorem applyResult_halt (s : State) : applyResult s .halt = s.withRun .halted := rfl

@[simp] theorem except_bind_ok {α β : Type} (a : α) (f : α → Except Cause β) : (Except.ok a >>= f) = f a := rfl
@[simp] theorem except_bind_error {α β : Type} (c : Cause) (f : α → Except Cause β) :
    ((Except.error c : Except Cause α) >>= f) = .error c := rfl

/-- A placed instruction's fetch address is inside memory with its two following bytes. -/
theorem placeInstruction_pc_lt (s : State) (b0 b1 b2 : Byte) : (placeInstruction s b0 b1 b2).pc + 2 < Config.memSize := by
  simp only [placeInstruction, State.withMem_pc, State.withPc_pc]
  split
  · assumption
  · decide

/-- Placing an instruction keeps the canonical form. -/
theorem placeInstruction_wf {s : State} {b0 b1 b2 : Byte} (h : s.mem.wf = true) :
    (placeInstruction s b0 b1 b2).mem.wf = true := by
  have hpc := placeInstruction_pc_lt s b0 b1 b2
  simp only [placeInstruction, State.withMem_pc, State.withPc_pc] at hpc
  exact Memory.wf_set (Memory.wf_set (Memory.wf_set h (by omega)) (by omega)) (by omega)

end Sys2Proof.Machine
end

