-- ==== Sys2Proof/Laws/Meanings.lean ====
section
/-! SUPPORT. Everything an instruction can do, said once per instruction: the next state it answers in each case of its operands and of the
state. Later proofs cite these and do not unfold a meaning. -/

namespace Sys2Proof.Machine

theorem exec_halt_cases (s : State) : exec .halt s = .next (s.withRun .halted) := rfl

theorem exec_loadImmediate_cases (b v : Byte) (s : State) :
    (∃ i, b = regByte i ∧ exec (.loadImmediate b v) s = .next ((s.withRegs (s.regs.set i v)).withPc (s.pc + 3))) ∨
    (Config.numRegs ≤ b.toNat ∧ exec (.loadImmediate b v) s = .next (takeAbort (.invalidRegister b) s)) := by
  obtain ⟨i, rfl⟩ | ⟨hb, hn⟩ := operand_cases b
  · exact .inl ⟨i, rfl, by simp [exec, execLoadImmediate]⟩
  · exact .inr ⟨hb, by simp [exec, execLoadImmediate, State.setReg_of_none hn]⟩

theorem exec_printReg_cases (b : Byte) (s : State) :
    (∃ i, b = regByte i ∧ exec (.printReg b) s = .next ((s.withOut (s.out ++ [s.reg i])).withPc (s.pc + 2))) ∨
    (Config.numRegs ≤ b.toNat ∧ exec (.printReg b) s = .next (takeAbort (.invalidRegister b) s)) := by
  obtain ⟨i, rfl⟩ | ⟨hb, hn⟩ := operand_cases b
  · exact .inl ⟨i, rfl, by simp [exec, execPrintReg]⟩
  · exact .inr ⟨hb, by simp [exec, execPrintReg, State.getReg_of_none hn]⟩

theorem aluHandler_cases (op : AluOp) (a b : Byte) (s : State) :
    (∃ i j, a = regByte i ∧ b = regByte j ∧
      aluHandler op a b s = .ok (s.withRegs (s.regs.set i (alu op (s.reg i) (s.reg j))), .continueBy 3)) ∨
    (Config.numRegs ≤ a.toNat ∧ aluHandler op a b s = .error (.invalidRegister a)) ∨
    (a.toNat < Config.numRegs ∧ Config.numRegs ≤ b.toNat ∧ aluHandler op a b s = .error (.invalidRegister b)) := by
  obtain ⟨i, rfl⟩ | ⟨ha, hna⟩ := operand_cases a
  · obtain ⟨j, rfl⟩ | ⟨hb, hnb⟩ := operand_cases b
    · exact .inl ⟨i, j, rfl, rfl, by simp [aluHandler]⟩
    · refine .inr (.inr ⟨?_, hb, by simp [aluHandler, State.getReg_of_none hnb]⟩)
      by_contra hge
      simpa using regIndex_of_ge (Nat.not_lt.mp hge)
  · exact .inr (.inl ⟨ha, by simp [aluHandler, State.getReg_of_none hna]⟩)

theorem exec_add_cases (a b : Byte) (s : State) :
    (∃ i j, a = regByte i ∧ b = regByte j ∧ exec (.add a b) s =
      .next ((s.withRegs (s.regs.set i (alu .add (s.reg i) (s.reg j)))).withPc (s.pc + 3))) ∨
    (Config.numRegs ≤ a.toNat ∧ exec (.add a b) s = .next (takeAbort (.invalidRegister a) s)) ∨
    (a.toNat < Config.numRegs ∧ Config.numRegs ≤ b.toNat ∧
      exec (.add a b) s = .next (takeAbort (.invalidRegister b) s)) := by
  obtain ⟨i, j, hi, hj, h⟩ | ⟨ha, h⟩ | ⟨ha, hb, h⟩ := aluHandler_cases .add a b s
  · exact .inl ⟨i, j, hi, hj, by simp [exec, execAdd, h]⟩
  · exact .inr (.inl ⟨ha, by simp [exec, execAdd, h]⟩)
  · exact .inr (.inr ⟨ha, hb, by simp [exec, execAdd, h]⟩)

theorem exec_multiply_cases (a b : Byte) (s : State) :
    (∃ i j, a = regByte i ∧ b = regByte j ∧ exec (.multiply a b) s =
      .next ((s.withRegs (s.regs.set i (alu .multiply (s.reg i) (s.reg j)))).withPc (s.pc + 3))) ∨
    (Config.numRegs ≤ a.toNat ∧ exec (.multiply a b) s = .next (takeAbort (.invalidRegister a) s)) ∨
    (a.toNat < Config.numRegs ∧ Config.numRegs ≤ b.toNat ∧
      exec (.multiply a b) s = .next (takeAbort (.invalidRegister b) s)) := by
  obtain ⟨i, j, hi, hj, h⟩ | ⟨ha, h⟩ | ⟨ha, hb, h⟩ := aluHandler_cases .multiply a b s
  · exact .inl ⟨i, j, hi, hj, by simp [exec, execMultiply, h]⟩
  · exact .inr (.inl ⟨ha, by simp [exec, execMultiply, h]⟩)
  · exact .inr (.inr ⟨ha, hb, by simp [exec, execMultiply, h]⟩)

theorem exec_push_cases (b : Byte) (s : State) :
    (∃ i, b = regByte i ∧ inMemory (pushAddr s) ∧ exec (.push b) s =
      .next (((s.withMem (s.mem.set (s.sp - 1) (s.reg i))).withSp (s.sp - 1)).withPc (s.pc + 2))) ∨
    (Config.numRegs ≤ b.toNat ∧ exec (.push b) s = .next (takeAbort (.invalidRegister b) s)) ∨
    (b.toNat < Config.numRegs ∧ ¬ inMemory (pushAddr s) ∧
      exec (.push b) s = .next (takeAbort (.outOfBounds (pushAddr s)) s)) := by
  obtain ⟨i, rfl⟩ | ⟨hb, hn⟩ := operand_cases b
  · by_cases hin : inMemory (pushAddr s)
    · have hto : (pushAddr s).toNat = s.sp - 1 := by simp [pushAddr]
      exact .inl ⟨i, rfl, hin, by simp [exec, execPush, State.memWrite_of_in hin, hto]⟩
    · refine .inr (.inr ⟨?_, hin, by simp [exec, execPush, State.memWrite_of_out hin]⟩)
      by_contra hge
      simpa using regIndex_of_ge (Nat.not_lt.mp hge)
  · exact .inr (.inl ⟨hb, by simp [exec, execPush, State.getReg_of_none hn]⟩)

theorem exec_pop_cases (b : Byte) (s : State) :
    (∃ i, b = regByte i ∧ s.sp < Config.memSize ∧ exec (.pop b) s =
      .next (((s.withRegs (s.regs.set i (s.mem.get s.sp))).withSp (s.sp + 1)).withPc (s.pc + 2))) ∨
    (Config.memSize ≤ s.sp ∧ exec (.pop b) s = .next (takeAbort (.outOfBounds (popAddr s)) s)) ∨
    (s.sp < Config.memSize ∧ Config.numRegs ≤ b.toNat ∧
      exec (.pop b) s = .next (takeAbort (.invalidRegister b) s)) := by
  by_cases hsp : s.sp < Config.memSize
  · have hin : inMemory (popAddr s) := ⟨by simp [popAddr], by simpa [popAddr] using hsp⟩
    have hto : (popAddr s).toNat = s.sp := by simp [popAddr]
    obtain ⟨i, rfl⟩ | ⟨hb, hn⟩ := operand_cases b
    · exact .inl ⟨i, rfl, hsp, by simp [exec, execPop, State.memRead_of_in hin, hto]⟩
    · exact .inr (.inr ⟨hsp, hb, by simp [exec, execPop, State.memRead_of_in hin, State.setReg_of_none hn]⟩)
  · have hin : ¬ inMemory (popAddr s) := fun h => hsp (by simpa [popAddr] using h.2)
    exact .inr (.inl ⟨by omega, by simp [exec, execPop, State.memRead_of_out hin]⟩)

theorem jumpTo_cases (b : Byte) (s : State) :
    (∃ i, b = regByte i ∧ jumpTo b s = .ok (s, .redirected (s.reg i).toNat)) ∨
    (Config.numRegs ≤ b.toNat ∧ jumpTo b s = .error (.invalidRegister b)) := by
  obtain ⟨i, rfl⟩ | ⟨hb, hn⟩ := operand_cases b
  · exact .inl ⟨i, rfl, by simp [jumpTo]⟩
  · exact .inr ⟨hb, by simp [jumpTo, State.getReg_of_none hn]⟩

theorem exec_jump_cases (b : Byte) (s : State) :
    (∃ i, b = regByte i ∧ exec (.jump b) s = .next (s.withPc (s.reg i).toNat)) ∨
    (Config.numRegs ≤ b.toNat ∧ exec (.jump b) s = .next (takeAbort (.invalidRegister b) s)) := by
  obtain ⟨i, hi, h⟩ | ⟨hb, h⟩ := jumpTo_cases b s
  · exact .inl ⟨i, hi, by simp [exec, execJump, h]⟩
  · exact .inr ⟨hb, by simp [exec, execJump, h]⟩

theorem exec_compare_cases (a b : Byte) (s : State) :
    (∃ i j, a = regByte i ∧ b = regByte j ∧ exec (.compare a b) s =
      .next ((s.withFlags (compareFlags (s.reg i) (s.reg j))).withPc (s.pc + 3))) ∨
    (Config.numRegs ≤ a.toNat ∧ exec (.compare a b) s = .next (takeAbort (.invalidRegister a) s)) ∨
    (a.toNat < Config.numRegs ∧ Config.numRegs ≤ b.toNat ∧
      exec (.compare a b) s = .next (takeAbort (.invalidRegister b) s)) := by
  obtain ⟨i, rfl⟩ | ⟨ha, hna⟩ := operand_cases a
  · obtain ⟨j, rfl⟩ | ⟨hb, hnb⟩ := operand_cases b
    · exact .inl ⟨i, j, rfl, rfl, by simp [exec, execCompare]⟩
    · refine .inr (.inr ⟨?_, hb, by simp [exec, execCompare, State.getReg_of_none hnb]⟩)
      by_contra hge
      simpa using regIndex_of_ge (Nat.not_lt.mp hge)
  · exact .inr (.inl ⟨ha, by simp [exec, execCompare, State.getReg_of_none hna]⟩)

theorem exec_jumpIfEqual_cases (b : Byte) (s : State) :
    (s.flags.equal = false ∧ exec (.jumpIfEqual b) s = .next (s.withPc (s.pc + 2))) ∨
    (s.flags.equal = true ∧ ∃ i, b = regByte i ∧ exec (.jumpIfEqual b) s = .next (s.withPc (s.reg i).toNat)) ∨
    (s.flags.equal = true ∧ Config.numRegs ≤ b.toNat ∧
      exec (.jumpIfEqual b) s = .next (takeAbort (.invalidRegister b) s)) := by
  cases he : s.flags.equal with
  | false => exact .inl ⟨rfl, by simp [exec, execJumpIfEqual, he]⟩
  | true =>
    obtain ⟨i, hi, h⟩ | ⟨hb, h⟩ := jumpTo_cases b s
    · exact .inr (.inl ⟨rfl, i, hi, by simp [exec, execJumpIfEqual, he, h]⟩)
    · exact .inr (.inr ⟨rfl, hb, by simp [exec, execJumpIfEqual, he, h]⟩)

theorem exec_jumpIfNotEqual_cases (b : Byte) (s : State) :
    (s.flags.equal = true ∧ exec (.jumpIfNotEqual b) s = .next (s.withPc (s.pc + 2))) ∨
    (s.flags.equal = false ∧ ∃ i, b = regByte i ∧ exec (.jumpIfNotEqual b) s = .next (s.withPc (s.reg i).toNat)) ∨
    (s.flags.equal = false ∧ Config.numRegs ≤ b.toNat ∧
      exec (.jumpIfNotEqual b) s = .next (takeAbort (.invalidRegister b) s)) := by
  cases he : s.flags.equal with
  | true => exact .inl ⟨rfl, by simp [exec, execJumpIfNotEqual, he]⟩
  | false =>
    obtain ⟨i, hi, h⟩ | ⟨hb, h⟩ := jumpTo_cases b s
    · exact .inr (.inl ⟨rfl, i, hi, by simp [exec, execJumpIfNotEqual, he, h]⟩)
    · exact .inr (.inr ⟨rfl, hb, by simp [exec, execJumpIfNotEqual, he, h]⟩)

/-- No instruction ends in a fault or a refusal of the model. -/
theorem exec_isNext (i : Instr) (s : State) : ∃ t, exec i s = .next t := by
  cases i with
  | halt => exact ⟨_, exec_halt_cases s⟩
  | loadImmediate b v =>
    obtain ⟨_, _, h⟩ | ⟨_, h⟩ := exec_loadImmediate_cases b v s <;> exact ⟨_, h⟩
  | printReg b =>
    obtain ⟨_, _, h⟩ | ⟨_, h⟩ := exec_printReg_cases b s <;> exact ⟨_, h⟩
  | add a b =>
    obtain ⟨_, _, _, _, h⟩ | ⟨_, h⟩ | ⟨_, _, h⟩ := exec_add_cases a b s <;> exact ⟨_, h⟩
  | multiply a b =>
    obtain ⟨_, _, _, _, h⟩ | ⟨_, h⟩ | ⟨_, _, h⟩ := exec_multiply_cases a b s <;> exact ⟨_, h⟩
  | push b =>
    obtain ⟨_, _, _, h⟩ | ⟨_, h⟩ | ⟨_, _, h⟩ := exec_push_cases b s <;> exact ⟨_, h⟩
  | pop b =>
    obtain ⟨_, _, _, h⟩ | ⟨_, h⟩ | ⟨_, _, h⟩ := exec_pop_cases b s <;> exact ⟨_, h⟩
  | jump b =>
    obtain ⟨_, _, h⟩ | ⟨_, h⟩ := exec_jump_cases b s <;> exact ⟨_, h⟩
  | compare a b =>
    obtain ⟨_, _, _, _, h⟩ | ⟨_, h⟩ | ⟨_, _, h⟩ := exec_compare_cases a b s <;> exact ⟨_, h⟩
  | jumpIfEqual b =>
    obtain ⟨_, h⟩ | ⟨_, _, _, h⟩ | ⟨_, _, h⟩ := exec_jumpIfEqual_cases b s <;> exact ⟨_, h⟩
  | jumpIfNotEqual b =>
    obtain ⟨_, h⟩ | ⟨_, _, _, h⟩ | ⟨_, _, h⟩ := exec_jumpIfNotEqual_cases b s <;> exact ⟨_, h⟩

end Sys2Proof.Machine
end

