-- ==== Sys2Proof/Laws/PerInstr.lean ====
section
/-! SUPPORT. Facts proved once per constructor of Instr. -/

namespace Sys2Proof.Laws.EncodedLength

/-- Under any opcode map an instruction is encoded in 1 + operand count bytes, its opcode first (30_encoding.md R75). -/
def Statement (i : Instr) : Prop :=
  ∀ opc : OpcodeMap, (encodeWith opc i).length = instrLength (mnemonicOf i) ∧ (encodeWith opc i).head? = some (opc (mnemonicOf i))

theorem halt : Statement .halt := fun _ => ⟨rfl, rfl⟩
theorem loadImmediate (reg value : Byte) : Statement (.loadImmediate reg value) := fun _ => ⟨rfl, rfl⟩
theorem printReg (reg : Byte) : Statement (.printReg reg) := fun _ => ⟨rfl, rfl⟩
theorem add (regA regB : Byte) : Statement (.add regA regB) := fun _ => ⟨rfl, rfl⟩
theorem multiply (regA regB : Byte) : Statement (.multiply regA regB) := fun _ => ⟨rfl, rfl⟩
theorem push (reg : Byte) : Statement (.push reg) := fun _ => ⟨rfl, rfl⟩
theorem pop (reg : Byte) : Statement (.pop reg) := fun _ => ⟨rfl, rfl⟩
theorem jump (reg : Byte) : Statement (.jump reg) := fun _ => ⟨rfl, rfl⟩
theorem compare (regA regB : Byte) : Statement (.compare regA regB) := fun _ => ⟨rfl, rfl⟩
theorem jumpIfEqual (reg : Byte) : Statement (.jumpIfEqual reg) := fun _ => ⟨rfl, rfl⟩
theorem jumpIfNotEqual (reg : Byte) : Statement (.jumpIfNotEqual reg) := fun _ => ⟨rfl, rfl⟩

end Sys2Proof.Laws.EncodedLength
end

