-- ==== Sys2Proof/Laws/Step.lean ====
section
/-! SUPPORT. What a fetch and a step can do, said once. -/

namespace Sys2Proof.Machine

/-- Everything a fetch can answer, in the order of its checks. -/
theorem fetch_cases (opc : OpcodeMap) (s : State) :
    (Config.memSize ≤ s.pc ∧ fetch opc s = .error (.outOfBounds (s.pc : Int))) ∨
    (s.pc < Config.memSize ∧ lookupOpcode opc (s.mem.get s.pc) = none ∧
      fetch opc s = .error (.unknownOpcode (s.mem.get s.pc))) ∨
    (s.pc < Config.memSize ∧ ∃ m, lookupOpcode opc (s.mem.get s.pc) = some m ∧
      ((s.pc + 1 = Config.memSize ∧ fetch opc s = .error (.outOfBounds ((s.pc : Int) + 1))) ∨
       (s.pc + 2 = Config.memSize ∧ fetch opc s = .error (.outOfBounds ((s.pc : Int) + 2))) ∨
       (s.pc + 2 < Config.memSize ∧
         fetch opc s = .ok (buildInstr m (s.mem.get (s.pc + 1)) (s.mem.get (s.pc + 2)))))) := by
  by_cases h0 : s.pc < Config.memSize
  · have hin0 : inMemory (s.pc : Int) := ⟨by omega, by omega⟩
    cases hl : lookupOpcode opc (s.mem.get s.pc) with
    | none => exact .inr (.inl ⟨h0, rfl, by simp [fetch, State.memRead_of_in hin0, hl]⟩)
    | some m =>
      refine .inr (.inr ⟨h0, m, rfl, ?_⟩)
      by_cases h1 : s.pc + 1 < Config.memSize
      · have hin1 : inMemory ((s.pc : Int) + 1) := ⟨by omega, by omega⟩
        by_cases h2 : s.pc + 2 < Config.memSize
        · have hin2 : inMemory ((s.pc : Int) + 2) := ⟨by omega, by omega⟩
          refine .inr (.inr ⟨h2, ?_⟩)
          have e1 : ((s.pc : Int) + 1).toNat = s.pc + 1 := by omega
          have e2 : ((s.pc : Int) + 2).toNat = s.pc + 2 := by omega
          simp [fetch, State.memRead_of_in hin0, State.memRead_of_in hin1, State.memRead_of_in hin2, hl, e1, e2]
        · have hout : ¬ inMemory ((s.pc : Int) + 2) := fun h => h2 (by have := h.2; omega)
          exact .inr (.inl ⟨by omega, by simp [fetch, State.memRead_of_in hin0, State.memRead_of_in hin1,
            State.memRead_of_out hout, hl]⟩)
      · have hout : ¬ inMemory ((s.pc : Int) + 1) := fun h => h1 (by have := h.2; omega)
        exact .inl ⟨by omega, by simp [fetch, State.memRead_of_in hin0, State.memRead_of_out hout, hl]⟩
  · have hout : ¬ inMemory (s.pc : Int) := fun h => h0 (by have := h.2; omega)
    exact .inl ⟨by omega, by simp [fetch, State.memRead_of_out hout]⟩

/-- A fetch of a known opcode with three bytes inside memory. -/
theorem fetch_of_lookup {opc : OpcodeMap} {s : State} {m : Mnemonic} (hpc : s.pc + 2 < Config.memSize)
    (hl : lookupOpcode opc (s.mem.get s.pc) = some m) :
    fetch opc s = .ok (buildInstr m (s.mem.get (s.pc + 1)) (s.mem.get (s.pc + 2))) := by
  obtain ⟨h, -⟩ | ⟨-, h, -⟩ | ⟨-, k, h, ⟨hk, -⟩ | ⟨hk, -⟩ | ⟨-, he⟩⟩ := fetch_cases opc s
  · omega
  · rw [hl] at h; cases h
  · omega
  · omega
  · rw [hl] at h; cases h; exact he

/-- A fetch that answers an instruction read three bytes inside memory. -/
theorem fetch_ok_pc {opc : OpcodeMap} {s : State} {i : Instr} (h : fetch opc s = .ok i) : s.pc + 2 < Config.memSize := by
  obtain ⟨-, he⟩ | ⟨-, -, he⟩ | ⟨-, m, -, ⟨-, he⟩ | ⟨-, he⟩ | ⟨hlt, -⟩⟩ := fetch_cases opc s <;>
    first | exact hlt | (rw [he] at h; cases h)

/-- Everything a step that answers a next state did. -/
theorem stepWith_cases {opc : OpcodeMap} {s t : State} (h : stepWith opc s = .next t) :
    s.run = .running ∧
      ((∃ c, fetch opc s = .error c ∧ t = takeAbort c s) ∨ (∃ i, fetch opc s = .ok i ∧ exec i s = .next t)) := by
  cases hr : s.run with
  | halted => simp [stepWith, hr] at h
  | aborted => simp [stepWith, hr] at h
  | running =>
    refine ⟨rfl, ?_⟩
    cases hf : fetch opc s with
    | error c =>
      simp only [stepWith, hr, hf, Host.Outcome.next.injEq] at h
      exact .inl ⟨c, rfl, h.symm⟩
    | ok i =>
      simp only [stepWith, hr, hf] at h
      exact .inr ⟨i, rfl, h⟩

end Sys2Proof.Machine
end

