-- ==== Sys2Proof/Tests/Slice0.lean ====
section
/-! SUPPORT. Tests: expected results are the spec's (the vectors of 95_test_vectors.md, named V<n>, and the encodings of 30_encoding.md R76 and
R78, written out bit by bit). Then one witness for the hypotheses of each statement in Certificates/Slice0/Obligations.lean. -/

namespace Sys2Proof.Tests
open Sys2Proof Sys2Proof.Machine

/-- The next state of an outcome, if it is one. -/
def after (o : Host.Outcome State Fault Refusal) : Option State :=
  match o with
  | .next t => some t
  | .fault _ => none
  | .refused _ => none

/-- The reset state with `pc` at `a` and three bytes there. -/
def at3 (a : Nat) (b0 b1 b2 : Byte) : State :=
  { State.reset with pc := a, mem := (((State.reset.mem.set a b0).set (a + 1) b1).set (a + 2) b2) }

/-- A state with the register `i` holding `v`. -/
def holding (s : State) (i : Fin 8) (v : Byte) : State := { s with regs := s.regs.set i v }

/-- The flags by their three bits `E`, `L`, `G`. -/
def elg (e l g : Bool) : Flags := { equal := e, less := l, greater := g }

/-- A fetch from `at3`, by its one lemma and the three bytes. -/
theorem fetch_at3 {a : Nat} {b0 b1 b2 : Byte} {m : Mnemonic} {i : Instr} (hpc : (at3 a b0 b1 b2).pc + 2 < Config.memSize)
    (hl : lookupOpcode opcodeOf ((at3 a b0 b1 b2).mem.get (at3 a b0 b1 b2).pc) = some m)
    (hi : buildInstr m ((at3 a b0 b1 b2).mem.get (a + 1)) ((at3 a b0 b1 b2).mem.get (a + 2)) = i) :
    fetch opcodeOf (at3 a b0 b1 b2) = .ok i :=
  (fetch_of_lookup hpc hl).trans (congrArg Except.ok hi)

/-! ### Words from the spec decode -/

theorem test_decode_halt : decodeTableWord 8 0b00000001 = some .halt := by decide
theorem test_decode_load_immediate : decodeTableWord 24 0b000010000000001110000010 = some (.loadImmediate 3 8) := by decide
theorem test_decode_print_reg : decodeTableWord 16 0b0000010101000111 = some (.printReg 5) := by decide
theorem test_decode_add : decodeTableWord 24 0b000000010000000010100000 = some (.add 0 1) := by decide
theorem test_decode_multiply : decodeTableWord 24 0b000000110000001010100010 = some (.multiply 2 3) := by decide
theorem test_decode_push : decodeTableWord 16 0b0000001001000101 = some (.push 2) := by decide
theorem test_decode_pop : decodeTableWord 16 0b0000011001000110 = some (.pop 6) := by decide
theorem test_decode_jump : decodeTableWord 16 0b0000000101010100 = some (.jump 1) := by decide
theorem test_decode_compare : decodeTableWord 24 0b000001110000010010100111 = some (.compare 4 7) := by decide
theorem test_decode_jump_if_equal : decodeTableWord 16 0b1100100001010101 = some (.jumpIfEqual 200) := by decide
theorem test_decode_jump_if_not_equal : decodeTableWord 16 0b0000001101010110 = some (.jumpIfNotEqual 3) := by decide
/-- The table gives the opcode byte alone: the operand bytes are zero. -/
theorem test_decode_short_word : decodeTableWord 8 130 = some (.loadImmediate 0 0) := by decide
/-- V60, V61, V66, V67. -/
theorem test_decode_rejects : [0xFF, 0x00, 0x83, 0x02].map (decodeTableWord 8) = [none, none, none, none] := by decide
theorem test_decode_bytes_needs_three : decodeBytes [0x01#8, 0x00#8] = .error .missingOperandBytes := rfl
theorem test_decode_bytes_empty : decodeBytes [] = .error .noOpcodeByte := rfl
theorem test_decode_unknown_comes_first : decodeBytes [0xFF#8] = .error (.unknownOpcode 0xFF#8) := rfl

/-- The opcode bytes of the table of 30_encoding.md R78, in its order. -/
theorem test_opcode_bytes : allMnemonics.map opcodeOf =
    [0x01#8, 0x82#8, 0x47#8, 0xA0#8, 0xA2#8, 0x45#8, 0x46#8, 0x54#8, 0xA7#8, 0x55#8, 0x56#8] := by decide

/-! ### Well-formedness refuses each ill-formed operand -/

theorem test_wf_accepts : [Instr.halt, .loadImmediate 7 255, .add 0 7, .pop 7].all wellFormed = true := by decide
theorem test_wf_refuses_one_operand :
    [Instr.loadImmediate 8 0, .printReg 8, .push 255, .pop 8, .jump 8, .jumpIfEqual 200, .jumpIfNotEqual 8].any wellFormed = false := by decide
theorem test_wf_refuses_first_operand : [Instr.add 8 0, .multiply 8 0, .compare 8 0].any wellFormed = false := by decide
theorem test_wf_refuses_second_operand : [Instr.add 0 8, .multiply 0 8, .compare 0 255].any wellFormed = false := by decide

/-! ### One step each (95_test_vectors.md, part 2) -/

/-- V8. -/
theorem test_halt : after (step (at3 5 0x01 0 0)) = some { at3 5 0x01 0 0 with run := .halted } := by decide
/-- V9. -/
theorem test_halt_at_254 : after (step { State.reset with pc := 254, mem := [(254, 1)] }) =
    some { State.reset with pc := 254, mem := [(254, 1)], run := .aborted, abort := { code := 2, info := some 256 } } := by decide
/-- V2. -/
theorem test_load_immediate : (after (step (at3 10 0x82 0x07 0xFF))).map (fun t => (t.reg 7, t.reg 0, t.pc)) = some (255, 0, 13) := by decide
/-- V4. -/
theorem test_load_immediate_bad_register : (after (step (at3 10 0x82 0x08 0x01))).map (fun t => (t.run, t.abort, t.pc, t.reg 0)) =
    some (.aborted, { code := 3, info := some 8 }, 10, 0) := by decide
/-- V6. -/
theorem test_print_reg : (after (step { at3 3 0x47 0x05 0 with out := [1] })).map (fun t => (t.out, t.pc)) = some ([1, 0], 5) := by decide
/-- V7. -/
theorem test_print_reg_bad_register : (after (step (at3 3 0x47 0xFF 0))).map (fun t => (t.out, t.run, t.abort.info)) =
    some ([], .aborted, some 255) := by decide
/-- V11. -/
theorem test_add_wraps : (after (step (holding (holding (at3 0 0xA0 0 1) 0 200) 1 100))).map (fun t => (t.reg 0, t.reg 1, t.pc)) =
    some (44, 100, 3) := by decide
/-- V13. -/
theorem test_add_same_register : (after (step (holding (at3 0 0xA0 2 2) 2 130))).map (fun t => t.reg 2) = some 4 := by decide
/-- V18. -/
theorem test_multiply_wraps : (after (step (holding (holding (at3 0 0xA2 0 1) 0 255) 1 255))).map (fun t => (t.reg 0, t.reg 1)) =
    some (1, 255) := by decide
/-- V19f. -/
theorem test_multiply_both_bad : (after (step (at3 0 0xA2 0x0A 0x0B))).map (fun t => (t.run, t.abort)) =
    some (.aborted, { code := 3, info := some 10 }) := by decide
/-- V21: the lowest push overwrites the PUSH's own opcode byte. -/
theorem test_push_lowest : (after (step { holding (at3 0 0x45 1 0) 1 9 with sp := 1 })).map (fun t => (t.sp, t.mem.get 0, t.pc)) =
    some (0, 9, 2) := by decide
/-- V22. -/
theorem test_push_underflow : (after (step { holding (at3 10 0x45 1 0) 1 9 with sp := 0 })).map (fun t => (t.run, t.abort, t.sp, t.pc)) =
    some (.aborted, { code := 2, info := some (-1) }, 0, 10) := by decide
/-- V26. -/
theorem test_pop_highest : (after (step { at3 0 0x46 0 0 with sp := 255, mem := [(0, 0x46), (255, 66)] })).map (fun t => (t.reg 0, t.sp, t.pc)) =
    some (66, 256, 2) := by decide
/-- V28. -/
theorem test_pop_overflow_before_register : (after (step { at3 0 0x46 9 0 with sp := 256 })).map (fun t => (t.abort, t.sp)) =
    some ({ code := 2, info := some 256 }, 256) := by decide
/-- V40. -/
theorem test_jump : (after (step (holding (at3 8 0x54 1 0) 1 243))).map (fun t => t.pc) = some 243 := by decide
/-- V31 and V34. -/
theorem test_compare_less : (after (step { holding (holding (at3 0 0xA7 0 1) 0 5) 1 9 with flags := elg false false true })).map (fun t => (t.flags, t.pc)) =
    some (elg false true false, 3) := by decide
theorem test_compare_unsigned : (after (step (holding (holding (at3 0 0xA7 0 1) 0 128) 1 127))).map (fun t => t.flags) =
    some (elg false false true) := by decide
/-- V43. -/
theorem test_jump_if_equal_taken : (after (step { holding (at3 20 0x55 2 0) 2 24 with flags := elg true false false })).map (fun t => t.pc) =
    some 24 := by decide
/-- V46: not taken, the operand 200 is not examined. -/
theorem test_jump_if_equal_unexamined : (after (step { at3 20 0x55 0xC8 0 with flags := elg false true false })).map (fun t => (t.pc, t.run)) =
    some (22, .running) := by decide
/-- V50: taken before any COMPARE. -/
theorem test_jump_if_not_equal_before_compare : (after (step (holding (at3 20 0x56 3 0) 3 12))).map (fun t => t.pc) = some 12 := by decide
/-- V49. -/
theorem test_jump_if_not_equal_not_taken : (after (step { holding (at3 20 0x56 3 0) 3 12 with flags := elg true false false })).map (fun t => t.pc) =
    some 22 := by decide
/-- V62: the look-up precedes the operand fetch. -/
theorem test_unknown_opcode_at_255 : (after (step { State.reset with pc := 255, mem := [(255, 0xFF)] })).map (fun t => (t.run, t.abort)) =
    some (.aborted, { code := 1, info := some 255 }) := by decide
/-- V63. -/
theorem test_fetch_past_memory : (after (step { State.reset with pc := 256 })).map (fun t => (t.run, t.abort, t.pc)) =
    some (.aborted, { code := 2, info := some 256 }, 256) := by decide
/-- V64. -/
theorem test_no_step_in_halted : after (step { at3 0 0x82 0 8 with run := .halted }) = none := by decide
/-- 10_state.md R31. -/
theorem test_run_codes : [RunState.running, .halted, .aborted].map runCode = [0, 1, 2] := by decide
/-- 70_reset_and_hazards.md R201: program P1 of 95_test_vectors.md is placed from address 0. -/
theorem test_load : (initialState [0x82, 0x00, 0x08, 0x47, 0x00, 0x01]).map (fun s => [0, 1, 2, 3, 4, 5, 6].map s.mem.get) =
    some [0x82, 0, 8, 0x47, 0, 1, 0] := by decide
/-- Writing the reset contents removes the entry: equal memories are equal data. -/
theorem test_memory_is_canonical : Memory.set (Memory.set (Memory.set [] 5 1) 3 2) 5 0 = [(3, 2)] := by decide
/-- The placed instruction is the one the next step runs, wherever `pc` is. -/
theorem test_fetch_word : (after (step (({ State.reset with pc := 254, run := .halted } : State).withFetchWord 24 0x080082))).map
    (fun t => (t.reg 0, t.pc, t.run)) = some (8, 3, .running) := by decide

/-! ### Witnesses: the hypotheses of each statement are met -/

theorem witness_LoadingWritesTheProgramFromAddressZero :
    (List.replicate 256 (1 : Byte)).length ≤ 256 ∧ 256 < (List.replicate 257 (1 : Byte)).length := by
  rw [List.length_replicate, List.length_replicate]; decide
theorem witness_ZeroByteIsNoInstruction : State.reset.run = .running ∧ State.reset.pc < 256 ∧ State.reset.mem.get State.reset.pc = 0 := by decide
theorem witness_StepStopsByNameInTerminalStates :
    (State.reset.withRun .halted).run ≠ .running ∧ (State.reset.withRun .aborted).run ≠ .running := by decide
theorem witness_StepRunsTheDecodedInstruction :
    (at3 253 0x01 0 0).run = .running ∧ (at3 253 0x01 0 0).pc + 2 < 256 ∧
    decode ((at3 253 0x01 0 0).mem.get 253) ((at3 253 0x01 0 0).mem.get 254) ((at3 253 0x01 0 0).mem.get 255) = .ok .halt :=
  ⟨by decide, by decide, rfl⟩
theorem witness_DecodingAnEncodedInstructionGivesItBack :
    opcodeMapLegal opcodeOf ∧ encodeWith opcodeOf .halt ++ [0x47#8, 0x00#8] = [0x01#8, 0x47#8, 0x00#8] := ⟨opcodeOf_legal, by decide⟩
theorem witness_DecodedBytesBeginWithTheEncoding :
    decodeBytesWith opcodeOf [0x47#8, 0x05#8, 0x01#8] = .ok (.printReg 5, [0x01#8]) := rfl
theorem witness_OpcodeMappingIsOneToOne : opcodeMapLegal opcodeOf ∧ lookupOpcode opcodeOf 0xA2 = some .multiply := ⟨opcodeOf_legal, by decide⟩
theorem witness_OtherOpcodeBytesAreIllegal :
    opcodeMapLegal opcodeOf ∧ (at3 3 0xFF 0 0).run = .running ∧ (at3 3 0xFF 0 0).pc < 256 ∧
    ∀ m, opcodeOf m ≠ (at3 3 0xFF 0 0).mem.get 3 := ⟨opcodeOf_legal, by decide, by decide, by intro m; cases m <;> decide⟩
theorem witness_LengthFollowsFromTheOpcode : lookupOpcode opcodeOf 0x82 = some .loadImmediate := by decide
theorem witness_RegisterOperandsAreCheckedOnlyAtTheAccess :
    8 ≤ (8#8).toNat ∧ lookupOpcode opcodeOf 0x01 = some .halt ∧ lookupOpcode opcodeOf 0x45 = some .push ∧
    operandCount .halt = 0 ∧ operandCount .push ≤ 1 ∧ State.reset.flags.equal = false ∧ (elg true false false).equal = true := by decide
theorem witness_RegisterAccessContract : 8 ≤ (8#8).toNat ∧ 8 ≤ (255#8).toNat := by decide
theorem witness_MemReadContract :
    ((0 : Int) ≤ 0 ∧ (0 : Int) < (Config.memSize : Int)) ∧ ((0 : Int) ≤ 255 ∧ (255 : Int) < (Config.memSize : Int)) ∧
    ((-1 : Int) < 0) ∧ ((Config.memSize : Int) ≤ 256) := by decide
theorem witness_MemWriteContract :
    State.reset.mem.wf = true ∧ ((0 : Int) ≤ 255 ∧ (255 : Int) < (Config.memSize : Int)) ∧ ((Config.memSize : Int) ≤ 256) ∧
    (∀ r, Instr.halt ≠ .push r) ∧ after (exec .halt State.reset) = some (State.reset.withRun .halted) := by
  exact ⟨by decide, by decide, by decide, (fun r h => (by cases h)), by decide⟩
theorem witness_CanonicalMemoriesThatReadEqualAreEqual :
    Memory.wf [(3, 5)] = true ∧ Memory.wf (Memory.set [] 3 5) = true ∧ ∀ a, Memory.get [(3, 5)] a = Memory.get (Memory.set [] 3 5) a :=
  ⟨by decide, by decide, fun _ => rfl⟩
theorem witness_LoadImmediateWritesTheValue : 8 ≤ (8#8).toNat ∧ 8 ≤ (255#8).toNat := by decide
theorem witness_PrintRegAppendsTheValue : 8 ≤ (8#8).toNat := by decide
theorem witness_AddWritesTheSum : 8 ≤ (8#8).toNat ∧ (7#8).toNat < 8 ∧ 8 ≤ (255#8).toNat := by decide
theorem witness_MultiplyWritesTheProduct : 8 ≤ (8#8).toNat ∧ (0#8).toNat < 8 ∧ 8 ≤ (8#8).toNat := by decide
theorem witness_JumpGoesExactlyToTheRegister : 8 ≤ (8#8).toNat := by decide
theorem witness_CompareSetsExactlyOneFlag : 8 ≤ (8#8).toNat ∧ (7#8).toNat < 8 ∧ 8 ≤ (8#8).toNat := by decide
theorem witness_JumpIfNotEqualFollowsTheEqualFlag :
    State.reset.flags.equal = false ∧ 8 ≤ (8#8).toNat ∧ (State.reset.withFlags (elg true false false)).flags.equal = true := by decide
theorem witness_AbortEntryWritesTheRecord :
    Cause.unknownOpcode 255 = .unknownOpcode 255 ∧ Cause.outOfBounds (-1) = .outOfBounds (-1) ∧
    Cause.invalidRegister 8 = .invalidRegister 8 := by decide
theorem witness_HaltEntersHalted :
    opcodeMapLegal opcodeOf ∧ (at3 253 0x01 0 0).run = .running ∧ (at3 253 0x01 0 0).mem.get 253 = opcodeOf .halt ∧
    (at3 253 0x01 0 0).pc ≤ 253 ∧ Memory.get [(254, 1), (255, 1)] 254 = opcodeOf .halt ∧
    Memory.get [(254, 1), (255, 1)] 255 = opcodeOf .halt :=
  ⟨opcodeOf_legal, by decide, by decide, by decide, by decide, by decide⟩
theorem witness_PushStoresBelowTheStackPointer :
    (State.reset.withSp 1).mem.wf = true ∧ 1 ≤ (State.reset.withSp 1).sp ∧ (State.reset.withSp 256).sp ≤ 256 ∧
    pushAddr (State.reset.withSp 1) = ((0 : Nat) : Int) ∧ (State.reset.withSp 0).sp = 0 := by decide
theorem witness_PopLoadsFromTheStackPointer :
    (State.reset.withSp 255).sp < 256 ∧ (State.reset.withSp 256).sp = 256 ∧ 8 ≤ (9#8).toNat := by decide
theorem witness_JumpIfEqualFollowsTheEqualFlag :
    (State.reset.withFlags (elg true false false)).flags.equal = true ∧ State.reset.flags.equal = false ∧ 8 ≤ (200#8).toNat := by decide
theorem witness_FetchFaultsInTheirOrder :
    State.reset.run = .running ∧ 256 ≤ (State.reset.withPc 256).pc ∧
    lookupOpcode opcodeOf (Memory.get [(255, 0xFF)] 255) = none ∧
    lookupOpcode opcodeOf (Memory.get [(254, 1), (255, 1)] 254) ≠ none ∧
    lookupOpcode opcodeOf (Memory.get [(254, 1), (255, 1)] 255) ≠ none := by decide
theorem witness_AbortedStepCommitsNothing :
    after (stepWith opcodeOf (at3 0 0xA7 0 8)) = some (takeAbort (.invalidRegister 8) (at3 0 0xA7 0 8)) := by decide
theorem witness_WellFormedInstructionsAbortOnlyOnTheStack :
    wellFormed (.push 1) = true ∧ (State.reset.withSp 0).run ≠ .aborted ∧ (after (exec (.push 1) (State.reset.withSp 0))).map State.run = some .aborted ∧
    wellFormed (.pop 1) = true ∧ (after (exec (.pop 1) (State.reset.withSp 256))).map State.run = some .aborted := by decide
theorem witness_UnsupportedOperationIsNeverRaised :
    (after (stepWith opcodeOf (at3 0 0xFF 0 0))).map State.abort ≠ some (at3 0 0xFF 0 0).abort := by decide
theorem witness_EveryStepKeepsTheInvariant : Inv (at3 253 0x47 7 0) ∧ (after (stepWith opcodeOf (at3 253 0x47 7 0))).map State.pc = some 255 := by
  refine ⟨⟨by decide, by decide, by decide, by decide, fun h => absurd h (by decide)⟩, by decide⟩
theorem witness_PcAdvanceMatchesTheLength :
    fetch opcodeOf (at3 0 0xA0 0 1) = .ok (.add 0 1) ∧ (after (stepWith opcodeOf (at3 0 0xA0 0 1))).map State.run = some .running ∧
    fetch opcodeOf (at3 9 0x54 1 0) = .ok (.jump 1) ∧ fetch opcodeOf (at3 9 0x55 1 0) = .ok (.jumpIfEqual 1) ∧
    fetch opcodeOf (at3 9 0x56 1 0) = .ok (.jumpIfNotEqual 1) := 
  ⟨fetch_at3 (m := .add) (by decide) (by decide) (by decide), by decide,
   fetch_at3 (m := .jump) (by decide) (by decide) (by decide),
   fetch_at3 (m := .jumpIfEqual) (by decide) (by decide) (by decide),
   fetch_at3 (m := .jumpIfNotEqual) (by decide) (by decide) (by decide)⟩
theorem witness_FlagTripleStaysOneOfFour :
    fetch opcodeOf (at3 0 0xA7 0 1) = .ok (.compare 0 1) ∧ (after (stepWith opcodeOf (at3 0 0xA7 0 1))).map State.run = some .running ∧
    exactlyOneFlag (elg false true false) = true ∧ flagsLegal State.reset.flags = true := 
  ⟨fetch_at3 (m := .compare) (by decide) (by decide) (by decide), by decide, by decide, by decide⟩
theorem witness_EachStateHasItsOnlyWriters :
    (after (exec (.loadImmediate 1 5) State.reset)).map (fun t => t.reg 1) ≠ some (State.reset.reg 1) ∧
    (after (exec (.pop 1) State.reset)).map State.sp ≠ some State.reset.sp ∧
    (after (exec (.compare 1 2) State.reset)).map State.flags ≠ some State.reset.flags ∧
    (after (exec (.push 1) (holding State.reset 1 5))).map State.mem ≠ some State.reset.mem ∧
    (after (exec (.printReg 1) State.reset)).map State.out ≠ some State.reset.out ∧
    (after (exec .halt State.reset)).map State.run ≠ some State.reset.run ∧
    (after (exec (.printReg 8) State.reset)).map State.run ≠ some State.reset.run ∧
    (after (exec (.printReg 8) State.reset)).map State.abort ≠ some State.reset.abort ∧
    (after (exec (.jumpIfEqual 1) State.reset)).map State.pc ≠ some State.reset.pc := by decide
theorem witness_OnlyHaltEntersHalted : (after (stepWith opcodeOf (at3 0 0x01 0 0))).map State.run = some .halted := by decide
theorem witness_OutputOnlyGrows : (after (Host.Core.run Sys2Proof.core 1 (at3 0 0x47 0 0))).map State.out = some [0] := by decide
theorem witness_LessAndGreaterInfluenceNothing :
    sameButLessGreater (at3 0 0x56 0 0) ((at3 0 0x56 0 0).withFlags (elg false true true)) ∧
    (after (Host.Core.run Sys2Proof.core 1 (at3 0 0x56 0 0))).map State.pc = some 0 := ⟨rfl, by decide⟩
/-- Program P7 of 95_test_vectors.md: HALT's opcode is pushed to 243 and fetched from there. -/
theorem witness_FetchSeesThePushedByte :
    ∃ t u : State, (holding State.reset 0 1).mem.wf = true ∧ 1 ≤ (holding State.reset 0 1).sp ∧ (holding State.reset 0 1).sp ≤ 256 ∧
      exec (.push (BitVec.ofNat 8 (0 : Fin 8).val)) (holding State.reset 0 1) = .next t ∧ u.mem = t.mem ∧ u.run = .running ∧
      u.pc = (holding State.reset 0 1).sp - 1 ∧ u.pc + 2 < 256 ∧
      decodeWith opcodeOf ((holding State.reset 0 1).reg 0) 0 0 = .ok .halt :=
  ⟨_, (holding State.reset 0 1).withMem [(243, 1)] |>.withPc 243, by decide, by decide, by decide, rfl, by decide, by decide, by decide,
   by decide, rfl⟩
/-- V24. -/
theorem witness_PushThenPopRestores :
    opcodeMapLegal opcodeOf ∧ (let s : State := { State.reset with sp := 100, mem := [(0, 0x45), (1, 2), (2, 0x46), (3, 6)] }
      s.run = .running ∧ s.mem.wf = true ∧ 1 ≤ s.sp ∧ s.sp ≤ 256 ∧ s.pc + 4 < 256 ∧ s.mem.get s.pc = opcodeOf .push ∧ s.mem.get (s.pc + 1) = 2 ∧
      s.mem.get (s.pc + 2) = opcodeOf .pop ∧ s.mem.get (s.pc + 3) = 6 ∧ s.sp - 1 ≠ s.pc + 2 ∧ s.sp - 1 ≠ s.pc + 3) :=
  ⟨opcodeOf_legal, by decide⟩
theorem witness_PushesStandInReverseOrder :
    (State.reset.withSp 2).mem.wf = true ∧ ([3, 4] : List (Fin 8)).length ≤ (State.reset.withSp 2).sp ∧ (State.reset.withSp 2).sp ≤ 256 := by decide
/-- V41. -/
theorem witness_JumpToItselfNeverEnds :
    (holding (at3 8 0x54 1 0) 1 8).run = .running ∧ fetch opcodeOf (holding (at3 8 0x54 1 0) 1 8) = .ok (.jump 1) ∧
    ((holding (at3 8 0x54 1 0) 1 8).reg 1).toNat = (holding (at3 8 0x54 1 0) 1 8).pc := 
  ⟨by decide, fetch_at3 (m := .jump) (by decide) (by decide) (by decide), by decide⟩
theorem witness_BudgetedRunEndsOnlyInTerminalStates :
    runFor 0 State.reset = .exhausted State.reset ∧
    runFor 1 State.reset = .ended (takeAbort (.unknownOpcode 0) State.reset) := by decide

end Sys2Proof.Tests
end

/-! ### The flag triple and register access (10_state.md R22, R29) -/

namespace Sys2Proof.Machine

/-! #### The flag states -/

theorem exactlyOneFlag_iff {f : Flags} : exactlyOneFlag f = true ↔
    f = { equal := true, less := false, greater := false } ∨ f = { equal := false, less := true, greater := false } ∨
    f = { equal := false, less := false, greater := true } := by
  obtain ⟨e, l, g⟩ := f
  cases e <;> cases l <;> cases g <;> decide

theorem flagsLegal_iff {f : Flags} : flagsLegal f = true ↔ f = flagsNone ∨ exactlyOneFlag f = true := by
  simp [flagsLegal]

@[simp] theorem exactlyOneFlag_compareFlags (a b : Byte) : exactlyOneFlag (compareFlags a b) = true := by
  unfold compareFlags
  split
  · rfl
  · split <;> rfl

/-! #### What an instruction and a step do to the flags -/

/-- Every instruction but COMPARE keeps the flags (10_state.md R28). -/
theorem exec_keeps_flags {i : Instr} (hi : ∀ a b, i ≠ .compare a b) (s : State) :
    ∃ t, exec i s = .next t ∧ t.flags = s.flags := by
  cases i with
  | halt => exact ⟨_, exec_halt_cases s, rfl⟩
  | loadImmediate b v =>
    obtain ⟨_, _, h⟩ | ⟨_, h⟩ := exec_loadImmediate_cases b v s <;> exact ⟨_, h, rfl⟩
  | printReg b =>
    obtain ⟨_, _, h⟩ | ⟨_, h⟩ := exec_printReg_cases b s <;> exact ⟨_, h, rfl⟩
  | add a b =>
    obtain ⟨_, _, _, _, h⟩ | ⟨_, h⟩ | ⟨_, _, h⟩ := exec_add_cases a b s <;> exact ⟨_, h, rfl⟩
  | multiply a b =>
    obtain ⟨_, _, _, _, h⟩ | ⟨_, h⟩ | ⟨_, _, h⟩ := exec_multiply_cases a b s <;> exact ⟨_, h, rfl⟩
  | push b =>
    obtain ⟨_, _, _, h⟩ | ⟨_, h⟩ | ⟨_, _, h⟩ := exec_push_cases b s <;> exact ⟨_, h, rfl⟩
  | pop b =>
    obtain ⟨_, _, _, h⟩ | ⟨_, h⟩ | ⟨_, _, h⟩ := exec_pop_cases b s <;> exact ⟨_, h, rfl⟩
  | jump b =>
    obtain ⟨_, _, h⟩ | ⟨_, h⟩ := exec_jump_cases b s <;> exact ⟨_, h, rfl⟩
  | compare a b => exact absurd rfl (hi a b)
  | jumpIfEqual b =>
    obtain ⟨_, h⟩ | ⟨_, _, _, h⟩ | ⟨_, _, h⟩ := exec_jumpIfEqual_cases b s <;> exact ⟨_, h, rfl⟩
  | jumpIfNotEqual b =>
    obtain ⟨_, h⟩ | ⟨_, _, _, h⟩ | ⟨_, _, h⟩ := exec_jumpIfNotEqual_cases b s <;> exact ⟨_, h, rfl⟩

/-- A COMPARE sets exactly one flag, or it aborts and keeps all three (10_state.md R30). -/
theorem exec_compare_flags {a b : Byte} {s t : State} (h : exec (.compare a b) s = .next t) :
    exactlyOneFlag t.flags = true ∨ (t.flags = s.flags ∧ t.run = .aborted) := by
  obtain ⟨i, j, _, _, hc⟩ | ⟨_, hc⟩ | ⟨_, _, hc⟩ := exec_compare_cases a b s <;> rw [hc] at h <;> cases h
  · exact .inl (exactlyOneFlag_compareFlags _ _)
  · exact .inr ⟨rfl, rfl⟩
  · exact .inr ⟨rfl, rfl⟩

/-- Everything a step can do to the flags: a COMPARE sets exactly one; an abort and every other instruction keep them. -/
theorem stepWith_flags_cases {opc : OpcodeMap} {s t : State} (h : stepWith opc s = .next t) :
    ((∃ a b, fetch opc s = .ok (.compare a b)) ∧ exactlyOneFlag t.flags = true) ∨
    (t.flags = s.flags ∧ (t.run = .aborted ∨ ∀ a b, fetch opc s ≠ .ok (.compare a b))) := by
  obtain ⟨-, ⟨c, -, rfl⟩ | ⟨i, hf, he⟩⟩ := stepWith_cases h
  · exact .inr ⟨rfl, .inl rfl⟩
  · by_cases hi : ∃ a b, i = .compare a b
    · obtain ⟨a, b, rfl⟩ := hi
      obtain hone | ⟨hkeep, hrun⟩ := exec_compare_flags he
      · exact .inl ⟨⟨a, b, hf⟩, hone⟩
      · exact .inr ⟨hkeep, .inl hrun⟩
    · push Not at hi
      obtain ⟨u, hu, hkeep⟩ := exec_keeps_flags hi s
      obtain rfl : u = t := by simpa [he] using hu.symm
      exact .inr ⟨hkeep, .inr fun a b hab => hi a b (by simpa [hf] using hab)⟩

/-- Settles O39: by cases on what the step did to the flags, the legal triples being NONE and the three with one flag set. -/
theorem flagTripleStaysOneOfFour : Obligations.FlagTripleStaysOneOfFour := by
  unfold Obligations.FlagTripleStaysOneOfFour
  refine ⟨rfl, ?_, fun f => by rw [flagsLegal_iff, exactlyOneFlag_iff, flagsNone]⟩
  intro opc s t h
  obtain ⟨⟨a, b, hf⟩, hone⟩ | ⟨hkeep, hwhy⟩ := stepWith_flags_cases h
  · exact ⟨fun _ => flagsLegal_iff.mpr (.inr hone), fun _ => hone, fun _ _ _ _ => hone, fun hno => absurd hf (hno a b)⟩
  · rw [hkeep]
    refine ⟨id, id, fun a b hf hrun => ?_, fun _ => rfl⟩
    obtain habort | hno := hwhy
    · rw [hrun] at habort; cases habort
    · exact absurd hf (hno a b)

/-! #### Register access -/

/-- Settles O15: the rules of `getReg` and `setReg` for a byte that names no register and for one that names register `i`. -/
theorem registerAccessContract : Obligations.RegisterAccessContract := by
  unfold Obligations.RegisterAccessContract
  refine ⟨fun s b v hb => ?_, fun s i v => ?_⟩
  · have hnone : regIndex b = none := regIndex_of_ge hb
    exact ⟨State.getReg_of_none hnone, State.setReg_of_none hnone⟩
  · refine ⟨State.getReg_regByte s i, s.withRegs (s.regs.set i v), State.setReg_regByte s i v, ?_, fun k hk => ?_, rfl⟩
    · exact (State.reg_set s i i v).trans (if_pos rfl)
    · exact (State.reg_set s i k v).trans (if_neg hk)

end Sys2Proof.Machine

/-! ### Memory access and what a fetch reads (20_memory.md R51, R52, R64) -/

namespace Sys2Proof.Machine

/-! #### Addresses -/

/-- An address is outside memory exactly when it is negative or from `MEM_SIZE` up: no wrap, no clamp (20_memory.md R53). -/
theorem not_inMemory_iff {addr : Int} : ¬ inMemory addr ↔ addr < 0 ∨ (Config.memSize : Int) ≤ addr := by
  rw [inMemory, not_and_or, not_le, not_lt]

/-- PUSH's address is inside memory for every `sp` from 1 to `MEM_SIZE` (43_stack.md R140). -/
theorem inMemory_pushAddr {s : State} (hpos : 1 ≤ s.sp) (hle : s.sp ≤ Config.memSize) : inMemory (pushAddr s) := by
  unfold inMemory pushAddr
  omega

/-- Settles O16: the rule of `memRead` inside memory and the one outside. -/
theorem memReadContract : Obligations.MemReadContract := by
  unfold Obligations.MemReadContract
  exact fun s addr => ⟨State.memRead_of_in, fun hout => State.memRead_of_out (not_inMemory_iff.mpr hout)⟩

/-! #### What an instruction does to memory -/

/-- Every instruction but PUSH keeps memory, whether it completes or aborts (20_memory.md R52). -/
theorem exec_keeps_mem {i : Instr} (hi : ∀ r, i ≠ .push r) (s : State) :
    ∃ t, exec i s = .next t ∧ t.mem = s.mem := by
  cases i with
  | halt => exact ⟨_, exec_halt_cases s, rfl⟩
  | loadImmediate b v =>
    obtain ⟨_, _, h⟩ | ⟨_, h⟩ := exec_loadImmediate_cases b v s <;> exact ⟨_, h, rfl⟩
  | printReg b =>
    obtain ⟨_, _, h⟩ | ⟨_, h⟩ := exec_printReg_cases b s <;> exact ⟨_, h, rfl⟩
  | add a b =>
    obtain ⟨_, _, _, _, h⟩ | ⟨_, h⟩ | ⟨_, _, h⟩ := exec_add_cases a b s <;> exact ⟨_, h, rfl⟩
  | multiply a b =>
    obtain ⟨_, _, _, _, h⟩ | ⟨_, h⟩ | ⟨_, _, h⟩ := exec_multiply_cases a b s <;> exact ⟨_, h, rfl⟩
  | push b => exact absurd rfl (hi b)
  | pop b =>
    obtain ⟨_, _, _, h⟩ | ⟨_, h⟩ | ⟨_, _, h⟩ := exec_pop_cases b s <;> exact ⟨_, h, rfl⟩
  | jump b =>
    obtain ⟨_, _, h⟩ | ⟨_, h⟩ := exec_jump_cases b s <;> exact ⟨_, h, rfl⟩
  | compare a b =>
    obtain ⟨_, _, _, _, h⟩ | ⟨_, h⟩ | ⟨_, _, h⟩ := exec_compare_cases a b s <;> exact ⟨_, h, rfl⟩
  | jumpIfEqual b =>
    obtain ⟨_, h⟩ | ⟨_, _, _, h⟩ | ⟨_, _, h⟩ := exec_jumpIfEqual_cases b s <;> exact ⟨_, h, rfl⟩
  | jumpIfNotEqual b =>
    obtain ⟨_, h⟩ | ⟨_, _, _, h⟩ | ⟨_, _, h⟩ := exec_jumpIfNotEqual_cases b s <;> exact ⟨_, h, rfl⟩

/-- A PUSH of a named register with its address inside memory completes, with this state (43_stack.md R141). -/
theorem exec_push_regByte {s : State} (i : Fin Config.numRegs) (hin : inMemory (pushAddr s)) :
    exec (.push (regByte i)) s =
      .next (((s.withMem (s.mem.set (s.sp - 1) (s.reg i))).withSp (s.sp - 1)).withPc (s.pc + 2)) := by
  obtain ⟨j, hij, -, h⟩ | ⟨hge, -⟩ | ⟨-, hout, -⟩ := exec_push_cases (regByte i) s
  · obtain rfl : i = j := by simpa using regIndex_eq_some.mpr hij
    exact h
  · simpa using regIndex_of_ge hge
  · exact absurd hin hout

/-- Settles O17: the rule of `memWrite` inside memory and the one outside, and that no other instruction than PUSH writes. -/
theorem memWriteContract : Obligations.MemWriteContract := by
  unfold Obligations.MemWriteContract
  refine ⟨fun s addr v hwf hin => ?_, fun s addr v hout => State.memWrite_of_out (not_inMemory_iff.mpr hout),
    fun i s t h hi => ?_⟩
  · refine ⟨s.withMem (s.mem.set addr.toNat v), State.memWrite_of_in hin, ?_, fun a ha => ?_, rfl⟩
    · exact (Memory.get_set hwf).trans (if_pos rfl)
    · exact (Memory.get_set hwf).trans (if_neg ha)
  · obtain ⟨u, hu, hkeep⟩ := exec_keeps_mem hi s
    obtain rfl : u = t := by simpa [h] using hu.symm
    exact hkeep

/-! #### What a step does with the bytes it reads -/

theorem decodeWith_eq_ok {opc : OpcodeMap} {op b1 b2 : Byte} {i : Instr} :
    decodeWith opc op b1 b2 = .ok i ↔ ∃ m, lookupOpcode opc op = some m ∧ buildInstr m b1 b2 = i := by
  cases h : lookupOpcode opc op <;> simp [decodeWith, h]

theorem decodeWith_eq_error {opc : OpcodeMap} {op b1 b2 : Byte} {e : DecodeReject} :
    decodeWith opc op b1 b2 = .error e ↔ lookupOpcode opc op = none ∧ e = .unknownOpcode op := by
  cases h : lookupOpcode opc op <;> simp [decodeWith, h, eq_comm]

/-- A fetch of an unknown opcode byte answers UnknownOpcode, wherever in memory the byte stands (40_engine_and_dispatch.md R102). -/
theorem fetch_of_lookup_none {opc : OpcodeMap} {s : State} (hpc : s.pc < Config.memSize)
    (hl : lookupOpcode opc (s.mem.get s.pc) = none) : fetch opc s = .error (.unknownOpcode (s.mem.get s.pc)) := by
  obtain ⟨hge, -⟩ | ⟨-, -, h⟩ | ⟨-, m, hm, -⟩ := fetch_cases opc s
  · omega
  · exact h
  · rw [hl] at hm; cases hm

/-- In RUNNING a step runs what its three bytes decode to (40_engine_and_dispatch.md R104). -/
theorem stepWith_of_decode_ok {opc : OpcodeMap} {s : State} {i : Instr} (hrun : s.run = .running)
    (hpc : s.pc + 2 < Config.memSize)
    (hd : decodeWith opc (s.mem.get s.pc) (s.mem.get (s.pc + 1)) (s.mem.get (s.pc + 2)) = .ok i) :
    stepWith opc s = exec i s := by
  obtain ⟨m, hm, rfl⟩ := decodeWith_eq_ok.mp hd
  simp [stepWith, hrun, fetch_of_lookup hpc hm]

/-- In RUNNING a step whose opcode byte is unknown aborts with UnknownOpcode of that byte (40_engine_and_dispatch.md R102). -/
theorem stepWith_of_lookup_none {opc : OpcodeMap} {s : State} (hrun : s.run = .running) (hpc : s.pc < Config.memSize)
    (hl : lookupOpcode opc (s.mem.get s.pc) = none) :
    stepWith opc s = .next (takeAbort (.unknownOpcode (s.mem.get s.pc)) s) := by
  simp [stepWith, hrun, fetch_of_lookup_none hpc hl]

/-- What memory reads after a PUSH: the pushed value at the new `sp`, what it read before anywhere else. -/
theorem exec_push_mem_get {s t : State} {i : Fin Config.numRegs} (hwf : s.mem.wf = true) (hin : inMemory (pushAddr s))
    (h : exec (.push (regByte i)) s = .next t) (a : Nat) :
    t.mem.get a = if a = s.sp - 1 then s.reg i else s.mem.get a := by
  rw [exec_push_regByte i hin, Host.Outcome.next.injEq] at h
  subst h
  exact Memory.get_set hwf

/-- Settles O44: memory after the PUSH reads as `rd`, and the step goes by the three bytes it reads at `pc`. -/
theorem fetchSeesThePushedByte : Obligations.FetchSeesThePushedByte := by
  unfold Obligations.FetchSeesThePushedByte
  intro opc s t u i rd hwf hpos hle hpush hrd hmem hrun hpc
  have hread : rd = u.mem.get := by
    rw [hrd, hmem]
    exact funext fun a => (exec_push_mem_get hwf (inMemory_pushAddr hpos hle) hpush a).symm
  rw [hread]
  refine ⟨fun k hk => stepWith_of_decode_ok hrun hpc hk, fun e he => ?_⟩
  obtain ⟨hnone, -⟩ := decodeWith_eq_error.mp he
  exact stepWith_of_lookup_none hrun (show u.pc < 256 by omega) hnone

end Sys2Proof.Machine

/-! ### The opcode mapping and the operand bytes (30_encoding.md R79, R84) -/

namespace Sys2Proof.Machine

/-! #### The look-up in the opcode mapping -/

theorem mem_allMnemonics (m : Mnemonic) : m ∈ allMnemonics := by
  cases m <;> decide

/-- The look-up answers a mnemonic only for that mnemonic's own opcode byte, under any map. -/
theorem eq_of_lookupOpcode {opc : OpcodeMap} {op : Byte} {m : Mnemonic} (h : lookupOpcode opc op = some m) : op = opc m := by
  have hbeq : (opc m == op) = true := List.find?_some (p := fun m => opc m == op) h
  exact (eq_of_beq hbeq).symm

/-- The look-up finds nothing exactly for a byte that is no mnemonic's opcode (30_encoding.md R81). -/
theorem lookupOpcode_eq_none {opc : OpcodeMap} {op : Byte} : lookupOpcode opc op = none ↔ ∀ m, opc m ≠ op := by
  simp [lookupOpcode, mem_allMnemonics]

/-- Under a map without two mnemonics on one byte, the look-up answers a mnemonic exactly for its opcode (30_encoding.md R84). -/
theorem lookupOpcode_eq_some {opc : OpcodeMap} (hinj : Function.Injective opc) {op : Byte} {m : Mnemonic} :
    lookupOpcode opc op = some m ↔ op = opc m := by
  refine ⟨eq_of_lookupOpcode, ?_⟩
  rintro rfl
  cases h : lookupOpcode opc (opc m) with
  | none => exact absurd rfl (lookupOpcode_eq_none.mp h m)
  | some k => rw [hinj (eq_of_lookupOpcode h)]

/-- Settles O11: the look-up answers a mnemonic exactly for its opcode, since a legal map is injective. -/
theorem opcodeMappingIsOneToOne : Obligations.OpcodeMappingIsOneToOne := by
  unfold Obligations.OpcodeMappingIsOneToOne
  rintro opc ⟨hinj, -⟩
  exact ⟨fun m => (lookupOpcode_eq_some hinj).mpr rfl, fun op m => eq_of_lookupOpcode, fun m m' h => hinj h⟩

/-! #### Operand bytes that are never examined -/

/-- A mnemonic with at most one operand ignores the second byte after its opcode (40_engine_and_dispatch.md R103). -/
theorem buildInstr_ignores_second {m : Mnemonic} (h : operandCount m ≤ 1) (b1 b2 b2' : Byte) :
    buildInstr m b1 b2 = buildInstr m b1 b2' := by
  cases m with
  | loadImmediate | add | multiply | compare => simp [operandCount] at h
  | halt | printReg | push | pop | jump | jumpIfEqual | jumpIfNotEqual => rfl

/-- A mnemonic without operands ignores both bytes after its opcode (40_engine_and_dispatch.md R103). -/
theorem buildInstr_ignores_both {m : Mnemonic} (h : operandCount m = 0) (b1 b2 b1' b2' : Byte) :
    buildInstr m b1 b2 = buildInstr m b1' b2' := by
  cases m with
  | halt => rfl
  | _ => simp [operandCount] at h

/-- A JUMP_IF_EQUAL not taken goes on at `pc + 2`, whatever its operand byte (44_compare_and_jumps.md R156). -/
theorem exec_jumpIfEqual_not_taken {s : State} (he : s.flags.equal = false) (b : Byte) :
    exec (.jumpIfEqual b) s = .next (s.withPc (s.pc + 2)) := by
  obtain ⟨-, h⟩ | ⟨htrue, -⟩ | ⟨htrue, -⟩ := exec_jumpIfEqual_cases b s
  · exact h
  · simp [he] at htrue
  · simp [he] at htrue

/-- A JUMP_IF_NOT_EQUAL not taken goes on at `pc + 2`, whatever its operand byte (44_compare_and_jumps.md R157). -/
theorem exec_jumpIfNotEqual_not_taken {s : State} (he : s.flags.equal = true) (b : Byte) :
    exec (.jumpIfNotEqual b) s = .next (s.withPc (s.pc + 2)) := by
  obtain ⟨-, h⟩ | ⟨hfalse, -⟩ | ⟨hfalse, -⟩ := exec_jumpIfNotEqual_cases b s
  · exact h
  · simp [he] at hfalse
  · simp [he] at hfalse

/-- Settles O14: register access by its contract, decoding by the bytes `buildInstr` ignores, and the two jumps not taken. -/
theorem registerOperandsAreCheckedOnlyAtTheAccess : Obligations.RegisterOperandsAreCheckedOnlyAtTheAccess := by
  unfold Obligations.RegisterOperandsAreCheckedOnlyAtTheAccess
  refine ⟨State.getReg_regByte, fun s b hb => ?_, fun opc op m hm b1 b2 => ?_,
    fun s b he => exec_jumpIfEqual_not_taken he b, fun s b he => exec_jumpIfNotEqual_not_taken he b⟩
  · have hnone : regIndex b = none := regIndex_of_ge hb
    exact ⟨State.getReg_of_none hnone, fun v => State.setReg_of_none hnone⟩
  · refine ⟨buildInstr m b1 b2, decodeWith_eq_ok.mpr ⟨m, hm, rfl⟩, fun hone b2' => ?_, fun hzero b1' b2' => ?_⟩
    · exact decodeWith_eq_ok.mpr ⟨m, hm, buildInstr_ignores_second hone b1 b2' b2⟩
    · exact decodeWith_eq_ok.mpr ⟨m, hm, buildInstr_ignores_both hzero b1' b2' b1 b2⟩

end Sys2Proof.Machine

/-! ### The engine: when a step is enabled, and where it leaves `pc` (40_engine_and_dispatch.md R100, R105, R106) -/

namespace Sys2Proof.Machine

/-! #### When a step is enabled -/

/-- In RUNNING a step answers a next state under every opcode map, a fetch that raised included. -/
theorem stepWith_isNext_of_running {opc : OpcodeMap} {s : State} (hrun : s.run = .running) :
    ∃ t, stepWith opc s = .next t := by
  cases hf : fetch opc s with
  | error c => exact ⟨takeAbort c s, by simp [stepWith, hrun, hf]⟩
  | ok i =>
    obtain ⟨t, ht⟩ := exec_isNext i s
    exact ⟨t, by simp [stepWith, hrun, hf, ht]⟩

/-- Settles O5: a step that answers a next state was taken in RUNNING, and in RUNNING every step answers one. -/
theorem stepIsEnabledExactlyWhenRunning : Obligations.StepIsEnabledExactlyWhenRunning := by
  unfold Obligations.StepIsEnabledExactlyWhenRunning
  refine ⟨fun s => ⟨?_, stepWith_isNext_of_running⟩, rfl, rfl⟩
  rintro ⟨t, h⟩
  obtain ⟨hrun, -⟩ := stepWith_cases h
  exact hrun

/-! #### Instructions that neither halt nor redirect -/

/-- The instructions whose handler, when it completes, always answers `Continue`: all but HALT and the three jumps
(40_engine_and_dispatch.md R106). -/
def isSequential : Instr → Bool
  | .halt | .jump _ | .jumpIfEqual _ | .jumpIfNotEqual _ => false
  | _ => true

/-- A sequential instruction advances `pc` by its length, or it aborts (40_engine_and_dispatch.md R106, R108). -/
theorem exec_sequential_cases {i : Instr} (hi : isSequential i = true) (s : State) :
    (∃ t, exec i s = .next t ∧ t.pc = s.pc + instrLength (mnemonicOf i)) ∨
    (∃ c, exec i s = .next (takeAbort c s)) := by
  cases i with
  | halt | jump | jumpIfEqual | jumpIfNotEqual => cases hi
  | loadImmediate b v =>
    obtain ⟨_, _, h⟩ | ⟨_, h⟩ := exec_loadImmediate_cases b v s
    exacts [.inl ⟨_, h, rfl⟩, .inr ⟨_, h⟩]
  | printReg b =>
    obtain ⟨_, _, h⟩ | ⟨_, h⟩ := exec_printReg_cases b s
    exacts [.inl ⟨_, h, rfl⟩, .inr ⟨_, h⟩]
  | add a b =>
    obtain ⟨_, _, _, _, h⟩ | ⟨_, h⟩ | ⟨_, _, h⟩ := exec_add_cases a b s
    exacts [.inl ⟨_, h, rfl⟩, .inr ⟨_, h⟩, .inr ⟨_, h⟩]
  | multiply a b =>
    obtain ⟨_, _, _, _, h⟩ | ⟨_, h⟩ | ⟨_, _, h⟩ := exec_multiply_cases a b s
    exacts [.inl ⟨_, h, rfl⟩, .inr ⟨_, h⟩, .inr ⟨_, h⟩]
  | push b =>
    obtain ⟨_, _, _, h⟩ | ⟨_, h⟩ | ⟨_, _, h⟩ := exec_push_cases b s
    exacts [.inl ⟨_, h, rfl⟩, .inr ⟨_, h⟩, .inr ⟨_, h⟩]
  | pop b =>
    obtain ⟨_, _, _, h⟩ | ⟨_, h⟩ | ⟨_, _, h⟩ := exec_pop_cases b s
    exacts [.inl ⟨_, h, rfl⟩, .inr ⟨_, h⟩, .inr ⟨_, h⟩]
  | compare a b =>
    obtain ⟨_, _, _, _, h⟩ | ⟨_, h⟩ | ⟨_, _, h⟩ := exec_compare_cases a b s
    exacts [.inl ⟨_, h, rfl⟩, .inr ⟨_, h⟩, .inr ⟨_, h⟩]

/-- A sequential instruction that stays RUNNING did not abort, so it advanced `pc` by its length. -/
theorem exec_sequential_pc {i : Instr} {s t : State} (hi : isSequential i = true) (h : exec i s = .next t)
    (hrun : t.run = .running) : t.pc = s.pc + instrLength (mnemonicOf i) := by
  obtain ⟨u, hu, hpc⟩ | ⟨c, hc⟩ := exec_sequential_cases hi s
  · rw [hu] at h; cases h; exact hpc
  · rw [hc] at h; cases h; cases hrun

/-! #### Halting and jumping -/

/-- After a HALT the machine is not RUNNING (41_halt_load_print.md R120). -/
theorem exec_halt_not_running {s t : State} (h : exec .halt s = .next t) : t.run ≠ .running := by
  rw [exec_halt_cases] at h
  cases h
  simp

/-- A JUMP that stays RUNNING leaves `pc` at its register's value, with no extra advance (44_compare_and_jumps.md R151). -/
theorem exec_jump_pc {r : Byte} {s t : State} (h : exec (.jump r) s = .next t) (hrun : t.run = .running) :
    ∃ k, r = regByte k ∧ t.pc = (s.reg k).toNat := by
  obtain ⟨k, hk, hj⟩ | ⟨-, hc⟩ := exec_jump_cases r s
  · rw [hj] at h; cases h; exact ⟨k, hk, rfl⟩
  · rw [hc] at h; cases h; cases hrun

/-- With E set a JUMP_IF_EQUAL is a JUMP, its fault included (44_compare_and_jumps.md R156). -/
theorem exec_jumpIfEqual_taken {s : State} (he : s.flags.equal = true) (r : Byte) :
    exec (.jumpIfEqual r) s = exec (.jump r) s := by
  simp [exec, execJumpIfEqual, execJump, he]

/-- With E clear a JUMP_IF_NOT_EQUAL is a JUMP, its fault included (44_compare_and_jumps.md R157). -/
theorem exec_jumpIfNotEqual_taken {s : State} (he : s.flags.equal = false) (r : Byte) :
    exec (.jumpIfNotEqual r) s = exec (.jump r) s := by
  simp [exec, execJumpIfNotEqual, execJump, he]

/-- E alone decides whether a JUMP_IF_EQUAL goes to its register's value or to the next instruction. -/
theorem exec_jumpIfEqual_pc {r : Byte} {s t : State} (h : exec (.jumpIfEqual r) s = .next t) (hrun : t.run = .running) :
    if s.flags.equal then ∃ k, r = regByte k ∧ t.pc = (s.reg k).toNat else t.pc = s.pc + instrLength .jumpIfEqual := by
  split
  next he =>
    rw [exec_jumpIfEqual_taken he] at h
    exact exec_jump_pc h hrun
  next he =>
    rw [exec_jumpIfEqual_not_taken (Bool.eq_false_of_not_eq_true he)] at h
    cases h
    rfl

/-- E alone decides whether a JUMP_IF_NOT_EQUAL goes to the next instruction or to its register's value. -/
theorem exec_jumpIfNotEqual_pc {r : Byte} {s t : State} (h : exec (.jumpIfNotEqual r) s = .next t)
    (hrun : t.run = .running) :
    if s.flags.equal then t.pc = s.pc + instrLength .jumpIfNotEqual else ∃ k, r = regByte k ∧ t.pc = (s.reg k).toNat := by
  split
  next he =>
    rw [exec_jumpIfNotEqual_not_taken he] at h
    cases h
    rfl
  next he =>
    rw [exec_jumpIfNotEqual_taken (Bool.eq_false_of_not_eq_true he)] at h
    exact exec_jump_pc h hrun

/-- Settles O38: the step ran the fetched instruction, which is HALT, one of the three jumps, or sequential. -/
theorem pcAdvanceMatchesTheLength : Obligations.PcAdvanceMatchesTheLength := by
  unfold Obligations.PcAdvanceMatchesTheLength
  intro opc s t i hfetch hstep hrun
  obtain ⟨-, ⟨c, herr, -⟩ | ⟨j, hj, hexec⟩⟩ := stepWith_cases hstep
  · rw [hfetch] at herr; cases herr
  · obtain rfl : i = j := by simpa [hfetch] using hj
    cases i with
    | halt => exact absurd hrun (exec_halt_not_running hexec)
    | jump r => exact exec_jump_pc hexec hrun
    | jumpIfEqual r => exact exec_jumpIfEqual_pc hexec hrun
    | jumpIfNotEqual r => exact exec_jumpIfNotEqual_pc hexec hrun
    | loadImmediate | printReg | add | multiply | push | pop | compare => exact exec_sequential_pc rfl hexec hrun

end Sys2Proof.Machine

/-! ### Loading an immediate value (41_halt_load_print.md R122) -/

namespace Sys2Proof.Machine

/-- A LOAD_IMMEDIATE of a named register completes, with this state. -/
theorem exec_loadImmediate_regByte (s : State) (i : Fin Config.numRegs) (v : Byte) :
    exec (.loadImmediate (regByte i) v) s = .next ((s.withRegs (s.regs.set i v)).withPc (s.pc + 3)) := by
  obtain ⟨j, hij, h⟩ | ⟨hge, -⟩ := exec_loadImmediate_cases (regByte i) v s
  · obtain rfl : i = j := by simpa using regIndex_eq_some.mpr hij
    exact h
  · simpa using regIndex_of_ge hge

/-- A LOAD_IMMEDIATE whose register byte names no register aborts with InvalidRegister of that byte. -/
theorem exec_loadImmediate_of_ge {b : Byte} (hb : Config.numRegs ≤ b.toNat) (v : Byte) (s : State) :
    exec (.loadImmediate b v) s = .next (takeAbort (.invalidRegister b) s) := by
  obtain ⟨i, rfl, -⟩ | ⟨-, h⟩ := exec_loadImmediate_cases b v s
  · simpa using regIndex_of_ge hb
  · exact h

/-- Settles O22: a register byte below 8 sets that one register, one from 8 up aborts. -/
theorem loadImmediateWritesTheValue : Obligations.LoadImmediateWritesTheValue := by
  unfold Obligations.LoadImmediateWritesTheValue
  refine ⟨fun s i v => ?_, fun s b v hb => exec_loadImmediate_of_ge hb v s, fun opc b v => rfl⟩
  refine ⟨_, exec_loadImmediate_regByte s i v, ?_, fun k hk => ?_, rfl, rfl⟩
  · exact (State.reg_set s i i v).trans (if_pos rfl)
  · exact (State.reg_set s i k v).trans (if_neg hk)

end Sys2Proof.Machine

/-! ### The ALU and MULTIPLY (42_alu.md R130, R135) -/

namespace Sys2Proof.Machine

/-! #### The ALU's results as integers -/

/-- The reduced sum fits in a byte, so storing it as one changes nothing (42_alu.md R130). -/
@[simp] theorem alu_add_toNat (a b : Byte) : (alu .add a b).toNat = (a.toNat + b.toNat) % wordRange :=
  Nat.mod_mod _ wordRange

/-- The reduced product fits in a byte, so storing it as one changes nothing (42_alu.md R130). -/
@[simp] theorem alu_multiply_toNat (a b : Byte) : (alu .multiply a b).toNat = a.toNat * b.toNat % wordRange :=
  Nat.mod_mod _ wordRange

/-- Settles O19: the byte of an ALU result is the exact result modulo `wordRange`, which is 256. -/
theorem aluAddsAndMultipliesModuloWordRange : Obligations.AluAddsAndMultipliesModuloWordRange := by
  unfold Obligations.AluAddsAndMultipliesModuloWordRange
  exact ⟨alu_add_toNat, alu_multiply_toNat⟩

/-! #### The three ways a MULTIPLY ends -/

/-- A MULTIPLY of two named registers, the same one twice included, completes with this state. -/
theorem exec_multiply_regByte (s : State) (i j : Fin Config.numRegs) :
    exec (.multiply (regByte i) (regByte j)) s =
      .next ((s.withRegs (s.regs.set i (alu .multiply (s.reg i) (s.reg j)))).withPc (s.pc + 3)) := by
  obtain ⟨k, l, hk, hl, h⟩ | ⟨hge, -⟩ | ⟨-, hge, -⟩ := exec_multiply_cases (regByte i) (regByte j) s
  · obtain rfl : i = k := by simpa using regIndex_eq_some.mpr hk
    obtain rfl : j = l := by simpa using regIndex_eq_some.mpr hl
    exact h
  · simpa using regIndex_of_ge hge
  · simpa using regIndex_of_ge hge

/-- A MULTIPLY whose first byte names no register aborts with InvalidRegister of it, whatever the second byte is. -/
theorem exec_multiply_of_first_ge {a : Byte} (ha : Config.numRegs ≤ a.toNat) (b : Byte) (s : State) :
    exec (.multiply a b) s = .next (takeAbort (.invalidRegister a) s) := by
  obtain ⟨i, -, rfl, -⟩ | ⟨-, h⟩ | ⟨hlt, -⟩ := exec_multiply_cases a b s
  · simpa using regIndex_of_ge ha
  · exact h
  · exact absurd ha (Nat.not_le.mpr hlt)

/-- A MULTIPLY whose first byte names a register and whose second names none aborts with InvalidRegister of the second. -/
theorem exec_multiply_of_second_ge {a b : Byte} (ha : a.toNat < Config.numRegs) (hb : Config.numRegs ≤ b.toNat) (s : State) :
    exec (.multiply a b) s = .next (takeAbort (.invalidRegister b) s) := by
  obtain ⟨-, j, -, rfl, -⟩ | ⟨hge, -⟩ | ⟨-, -, h⟩ := exec_multiply_cases a b s
  · simpa using regIndex_of_ge hb
  · exact absurd ha (Nat.not_lt.mpr hge)
  · exact h

/-- Settles O25: two register bytes below 8 set the first register to the product; the first byte from 8 up aborts with it. -/
theorem multiplyWritesTheProduct : Obligations.MultiplyWritesTheProduct := by
  unfold Obligations.MultiplyWritesTheProduct
  refine ⟨fun s i j => ?_, fun s a b ha => exec_multiply_of_first_ge ha b s,
    fun s a b ha hb => exec_multiply_of_second_ge ha hb s, fun opc a b => rfl⟩
  refine ⟨_, exec_multiply_regByte s i j, ?_, fun k hk => ?_, rfl, rfl⟩
  · have hreg := (State.reg_set s i i (alu .multiply (s.reg i) (s.reg j))).trans (if_pos rfl)
    exact (congrArg BitVec.toNat hreg).trans (alu_multiply_toNat _ _)
  · exact (State.reg_set s i k _).trans (if_neg hk)

end Sys2Proof.Machine

/-! ### JUMP and JUMP_IF_NOT_EQUAL (44_compare_and_jumps.md R151, R157) -/

namespace Sys2Proof.Machine

/-- A JUMP to a named register goes exactly to its value and changes nothing else. -/
theorem exec_jump_regByte (s : State) (i : Fin Config.numRegs) :
    exec (.jump (regByte i)) s = .next (s.withPc (s.reg i).toNat) := by
  obtain ⟨j, hij, h⟩ | ⟨hge, -⟩ := exec_jump_cases (regByte i) s
  · obtain rfl : i = j := by simpa using regIndex_eq_some.mpr hij
    exact h
  · simpa using regIndex_of_ge hge

/-- A JUMP whose byte names no register aborts with InvalidRegister of that byte. -/
theorem exec_jump_of_ge {b : Byte} (hb : Config.numRegs ≤ b.toNat) (s : State) :
    exec (.jump b) s = .next (takeAbort (.invalidRegister b) s) := by
  obtain ⟨i, rfl, -⟩ | ⟨-, h⟩ := exec_jump_cases b s
  · simpa using regIndex_of_ge hb
  · exact h

/-- Settles O28: a register byte below 8 is jumped to, one from 8 up aborts. -/
theorem jumpGoesExactlyToTheRegister : Obligations.JumpGoesExactlyToTheRegister := by
  unfold Obligations.JumpGoesExactlyToTheRegister
  exact ⟨exec_jump_regByte, fun s b hb => exec_jump_of_ge hb s, fun opc b => rfl⟩

/-- Settles O31: with E clear it is a JUMP, its fault included; with E set it goes on at `pc + 2`. -/
theorem jumpIfNotEqualFollowsTheEqualFlag : Obligations.JumpIfNotEqualFollowsTheEqualFlag := by
  unfold Obligations.JumpIfNotEqualFollowsTheEqualFlag
  refine ⟨fun s i he => ?taken, fun s b he => exec_jumpIfNotEqual_not_taken he b, fun s b he hb => ?fault, fun opc b => rfl⟩
  case taken => exact (exec_jumpIfNotEqual_taken he (regByte i)).trans (exec_jump_regByte s i)
  case fault => exact (exec_jumpIfNotEqual_taken he b).trans (exec_jump_of_ge hb s)

end Sys2Proof.Machine

/-! ### The completed instructions and the faults, as two relations (60_exceptions.md R175, 40_engine_and_dispatch.md R105, R108) -/

namespace Sys2Proof.Machine

/-- `Completes s i t`: run in `s`, the instruction `i` raises nothing and leaves `t` (`Completes.exec`, `exec_next_cases`). -/
inductive Completes (s : State) : Instr → State → Prop where
  | halt : Completes s .halt (s.withRun .halted)
  | loadImmediate (i : Fin Config.numRegs) (v : Byte) :
      Completes s (.loadImmediate (regByte i) v) ((s.withRegs (s.regs.set i v)).withPc (s.pc + 3))
  | printReg (i : Fin Config.numRegs) :
      Completes s (.printReg (regByte i)) ((s.withOut (s.out ++ [s.reg i])).withPc (s.pc + 2))
  | add (i j : Fin Config.numRegs) :
      Completes s (.add (regByte i) (regByte j))
        ((s.withRegs (s.regs.set i (alu .add (s.reg i) (s.reg j)))).withPc (s.pc + 3))
  | multiply (i j : Fin Config.numRegs) :
      Completes s (.multiply (regByte i) (regByte j))
        ((s.withRegs (s.regs.set i (alu .multiply (s.reg i) (s.reg j)))).withPc (s.pc + 3))
  | push (i : Fin Config.numRegs) (hin : inMemory (pushAddr s)) :
      Completes s (.push (regByte i))
        (((s.withMem (s.mem.set (s.sp - 1) (s.reg i))).withSp (s.sp - 1)).withPc (s.pc + 2))
  | pop (i : Fin Config.numRegs) (hsp : s.sp < Config.memSize) :
      Completes s (.pop (regByte i))
        (((s.withRegs (s.regs.set i (s.mem.get s.sp))).withSp (s.sp + 1)).withPc (s.pc + 2))
  | jump (i : Fin Config.numRegs) : Completes s (.jump (regByte i)) (s.withPc (s.reg i).toNat)
  | compare (i j : Fin Config.numRegs) :
      Completes s (.compare (regByte i) (regByte j))
        ((s.withFlags (compareFlags (s.reg i) (s.reg j))).withPc (s.pc + 3))
  | jumpIfEqualTaken (i : Fin Config.numRegs) (he : s.flags.equal = true) :
      Completes s (.jumpIfEqual (regByte i)) (s.withPc (s.reg i).toNat)
  | jumpIfEqualNotTaken (b : Byte) (he : s.flags.equal = false) :
      Completes s (.jumpIfEqual b) (s.withPc (s.pc + 2))
  | jumpIfNotEqualTaken (i : Fin Config.numRegs) (he : s.flags.equal = false) :
      Completes s (.jumpIfNotEqual (regByte i)) (s.withPc (s.reg i).toNat)
  | jumpIfNotEqualNotTaken (b : Byte) (he : s.flags.equal = true) :
      Completes s (.jumpIfNotEqual b) (s.withPc (s.pc + 2))

/-- `Raises s i c`: run in `s`, the instruction `i` raises the fault `c`, the first one its handler's checks find
(`Raises.exec`, `exec_next_cases`). -/
inductive Raises (s : State) : Instr → Cause → Prop where
  | loadImmediate {b : Byte} (v : Byte) (hb : Config.numRegs ≤ b.toNat) : Raises s (.loadImmediate b v) (.invalidRegister b)
  | printReg {b : Byte} (hb : Config.numRegs ≤ b.toNat) : Raises s (.printReg b) (.invalidRegister b)
  | addFirst {a : Byte} (b : Byte) (ha : Config.numRegs ≤ a.toNat) : Raises s (.add a b) (.invalidRegister a)
  | addSecond {a b : Byte} (ha : a.toNat < Config.numRegs) (hb : Config.numRegs ≤ b.toNat) :
      Raises s (.add a b) (.invalidRegister b)
  | multiplyFirst {a : Byte} (b : Byte) (ha : Config.numRegs ≤ a.toNat) : Raises s (.multiply a b) (.invalidRegister a)
  | multiplySecond {a b : Byte} (ha : a.toNat < Config.numRegs) (hb : Config.numRegs ≤ b.toNat) :
      Raises s (.multiply a b) (.invalidRegister b)
  | pushRegister {b : Byte} (hb : Config.numRegs ≤ b.toNat) : Raises s (.push b) (.invalidRegister b)
  | pushAddress {b : Byte} (hb : b.toNat < Config.numRegs) (hout : ¬ inMemory (pushAddr s)) :
      Raises s (.push b) (.outOfBounds (pushAddr s))
  | popAddress (b : Byte) (hsp : Config.memSize ≤ s.sp) : Raises s (.pop b) (.outOfBounds (popAddr s))
  | popRegister {b : Byte} (hsp : s.sp < Config.memSize) (hb : Config.numRegs ≤ b.toNat) :
      Raises s (.pop b) (.invalidRegister b)
  | jump {b : Byte} (hb : Config.numRegs ≤ b.toNat) : Raises s (.jump b) (.invalidRegister b)
  | compareFirst {a : Byte} (b : Byte) (ha : Config.numRegs ≤ a.toNat) : Raises s (.compare a b) (.invalidRegister a)
  | compareSecond {a b : Byte} (ha : a.toNat < Config.numRegs) (hb : Config.numRegs ≤ b.toNat) :
      Raises s (.compare a b) (.invalidRegister b)
  | jumpIfEqual {b : Byte} (he : s.flags.equal = true) (hb : Config.numRegs ≤ b.toNat) :
      Raises s (.jumpIfEqual b) (.invalidRegister b)
  | jumpIfNotEqual {b : Byte} (he : s.flags.equal = false) (hb : Config.numRegs ≤ b.toNat) :
      Raises s (.jumpIfNotEqual b) (.invalidRegister b)

/-! #### The relations are the model's `exec` -/

/-- Everything an instruction can do: it completes, or it raises a fault and the abort entry is taken. -/
theorem exec_cases (i : Instr) (s : State) :
    (∃ t, Completes s i t ∧ exec i s = .next t) ∨ (∃ c, Raises s i c ∧ exec i s = .next (takeAbort c s)) := by
  cases i with
  | halt => exact .inl ⟨_, .halt, exec_halt_cases s⟩
  | loadImmediate b v =>
    obtain ⟨i, rfl, h⟩ | ⟨hb, h⟩ := exec_loadImmediate_cases b v s
    exacts [.inl ⟨_, .loadImmediate i v, h⟩, .inr ⟨_, .loadImmediate v hb, h⟩]
  | printReg b =>
    obtain ⟨i, rfl, h⟩ | ⟨hb, h⟩ := exec_printReg_cases b s
    exacts [.inl ⟨_, .printReg i, h⟩, .inr ⟨_, .printReg hb, h⟩]
  | add a b =>
    obtain ⟨i, j, rfl, rfl, h⟩ | ⟨ha, h⟩ | ⟨ha, hb, h⟩ := exec_add_cases a b s
    exacts [.inl ⟨_, .add i j, h⟩, .inr ⟨_, .addFirst b ha, h⟩, .inr ⟨_, .addSecond ha hb, h⟩]
  | multiply a b =>
    obtain ⟨i, j, rfl, rfl, h⟩ | ⟨ha, h⟩ | ⟨ha, hb, h⟩ := exec_multiply_cases a b s
    exacts [.inl ⟨_, .multiply i j, h⟩, .inr ⟨_, .multiplyFirst b ha, h⟩, .inr ⟨_, .multiplySecond ha hb, h⟩]
  | push b =>
    obtain ⟨i, rfl, hin, h⟩ | ⟨hb, h⟩ | ⟨hb, hout, h⟩ := exec_push_cases b s
    exacts [.inl ⟨_, .push i hin, h⟩, .inr ⟨_, .pushRegister hb, h⟩, .inr ⟨_, .pushAddress hb hout, h⟩]
  | pop b =>
    obtain ⟨i, rfl, hsp, h⟩ | ⟨hsp, h⟩ | ⟨hsp, hb, h⟩ := exec_pop_cases b s
    exacts [.inl ⟨_, .pop i hsp, h⟩, .inr ⟨_, .popAddress b hsp, h⟩, .inr ⟨_, .popRegister hsp hb, h⟩]
  | jump b =>
    obtain ⟨i, rfl, h⟩ | ⟨hb, h⟩ := exec_jump_cases b s
    exacts [.inl ⟨_, .jump i, h⟩, .inr ⟨_, .jump hb, h⟩]
  | compare a b =>
    obtain ⟨i, j, rfl, rfl, h⟩ | ⟨ha, h⟩ | ⟨ha, hb, h⟩ := exec_compare_cases a b s
    exacts [.inl ⟨_, .compare i j, h⟩, .inr ⟨_, .compareFirst b ha, h⟩, .inr ⟨_, .compareSecond ha hb, h⟩]
  | jumpIfEqual b =>
    obtain ⟨he, h⟩ | ⟨he, i, rfl, h⟩ | ⟨he, hb, h⟩ := exec_jumpIfEqual_cases b s
    exacts [.inl ⟨_, .jumpIfEqualNotTaken b he, h⟩, .inl ⟨_, .jumpIfEqualTaken i he, h⟩, .inr ⟨_, .jumpIfEqual he hb, h⟩]
  | jumpIfNotEqual b =>
    obtain ⟨he, h⟩ | ⟨he, i, rfl, h⟩ | ⟨he, hb, h⟩ := exec_jumpIfNotEqual_cases b s
    exacts [.inl ⟨_, .jumpIfNotEqualNotTaken b he, h⟩, .inl ⟨_, .jumpIfNotEqualTaken i he, h⟩,
      .inr ⟨_, .jumpIfNotEqual he hb, h⟩]

/-- What an instruction that answered `t` did: it completed with `t`, or `t` is the abort entry of the fault it raised. -/
theorem exec_next_cases {i : Instr} {s t : State} (h : exec i s = .next t) :
    Completes s i t ∨ ∃ c, Raises s i c ∧ t = takeAbort c s := by
  obtain ⟨u, hu, he⟩ | ⟨c, hc, he⟩ := exec_cases i s <;> rw [he] at h <;> cases h
  · exact .inl hu
  · exact .inr ⟨c, hc, rfl⟩

/-- An operand byte below 8 names a register (10_state.md R22). -/
theorem exists_regByte_of_lt {b : Byte} (hb : b.toNat < Config.numRegs) : ∃ i, b = regByte i := by
  obtain h | ⟨hge, -⟩ := operand_cases b
  · exact h
  · omega

/-- POP's address is inside memory exactly for an `sp` below `MEM_SIZE` (43_stack.md R140). -/
theorem inMemory_popAddr {s : State} : inMemory (popAddr s) ↔ s.sp < Config.memSize := by
  simp only [inMemory, popAddr]
  omega

/-- An instruction that completes answers exactly the state the relation gives. -/
theorem Completes.exec {i : Instr} {s t : State} (h : Completes s i t) : exec i s = .next t := by
  cases h with
  | halt => exact exec_halt_cases s
  | loadImmediate i v => exact exec_loadImmediate_regByte s i v
  | printReg i => simp [Machine.exec, execPrintReg]
  | add i j => simp [Machine.exec, execAdd, aluHandler]
  | multiply i j => exact exec_multiply_regByte s i j
  | push i hin => exact exec_push_regByte i hin
  | pop i hsp =>
    have hto : (popAddr s).toNat = s.sp := by simp [popAddr]
    simp [Machine.exec, execPop, State.memRead_of_in (inMemory_popAddr.mpr hsp), hto]
  | jump i => exact exec_jump_regByte s i
  | compare i j => simp [Machine.exec, execCompare]
  | jumpIfEqualTaken i he => exact (exec_jumpIfEqual_taken he _).trans (exec_jump_regByte s i)
  | jumpIfEqualNotTaken b he => exact exec_jumpIfEqual_not_taken he b
  | jumpIfNotEqualTaken i he => exact (exec_jumpIfNotEqual_taken he _).trans (exec_jump_regByte s i)
  | jumpIfNotEqualNotTaken b he => exact exec_jumpIfNotEqual_not_taken he b

theorem State.getReg_of_ge {b : Byte} (hb : Config.numRegs ≤ b.toNat) (s : State) :
    s.getReg b = .error (.invalidRegister b) :=
  State.getReg_of_none (regIndex_of_ge hb)

/-- An instruction that raises a fault takes the abort entry from the state before it (60_exceptions.md R177). -/
theorem Raises.exec {i : Instr} {s : State} {c : Cause} (h : Raises s i c) : exec i s = .next (takeAbort c s) := by
  cases h with
  | loadImmediate v hb => exact exec_loadImmediate_of_ge hb v s
  | printReg hb => simp [Machine.exec, execPrintReg, State.getReg_of_ge hb]
  | addFirst b ha => simp [Machine.exec, execAdd, aluHandler, State.getReg_of_ge ha]
  | addSecond ha hb =>
    obtain ⟨i, rfl⟩ := exists_regByte_of_lt ha
    simp [Machine.exec, execAdd, aluHandler, State.getReg_of_ge hb]
  | multiplyFirst b ha => exact exec_multiply_of_first_ge ha b s
  | multiplySecond ha hb => exact exec_multiply_of_second_ge ha hb s
  | pushRegister hb => simp [Machine.exec, execPush, State.getReg_of_ge hb]
  | pushAddress hb hout =>
    obtain ⟨i, rfl⟩ := exists_regByte_of_lt hb
    simp [Machine.exec, execPush, State.memWrite_of_out hout]
  | popAddress b hsp =>
    have hout : ¬ inMemory (popAddr s) := fun hin => Nat.not_lt.mpr hsp (inMemory_popAddr.mp hin)
    simp [Machine.exec, execPop, State.memRead_of_out hout]
  | popRegister hsp hb =>
    simp [Machine.exec, execPop, State.memRead_of_in (inMemory_popAddr.mpr hsp), State.setReg_of_none (regIndex_of_ge hb)]
  | jump hb => exact exec_jump_of_ge hb s
  | compareFirst b ha => simp [Machine.exec, execCompare, State.getReg_of_ge ha]
  | compareSecond ha hb =>
    obtain ⟨i, rfl⟩ := exists_regByte_of_lt ha
    simp [Machine.exec, execCompare, State.getReg_of_ge hb]
  | jumpIfEqual he hb => exact (exec_jumpIfEqual_taken he _).trans (exec_jump_of_ge hb s)
  | jumpIfNotEqual he hb => exact (exec_jumpIfNotEqual_taken he _).trans (exec_jump_of_ge hb s)

end Sys2Proof.Machine

/-! ### What a step that answers a next state did, and the invariant it keeps (40_engine_and_dispatch.md R108, R110) -/

namespace Sys2Proof.Machine

/-! #### One inversion of the step -/

/-- Everything a step that answers `t` did: the fetched instruction completed with `t`, or the fetch or the fetched instruction
raised a fault and `t` is its abort entry from the state before the step. -/
theorem stepWith_next_cases {opc : OpcodeMap} {s t : State} (h : stepWith opc s = .next t) :
    s.run = .running ∧
      ((∃ i, fetch opc s = .ok i ∧ Completes s i t) ∨
       (∃ c, t = takeAbort c s ∧ (fetch opc s = .error c ∨ ∃ i, fetch opc s = .ok i ∧ Raises s i c))) := by
  obtain ⟨hrun, ⟨c, hf, ht⟩ | ⟨i, hf, he⟩⟩ := stepWith_cases h
  · exact ⟨hrun, .inr ⟨c, ht, .inl hf⟩⟩
  · obtain hcomp | ⟨c, hr, ht⟩ := exec_next_cases he
    · exact ⟨hrun, .inl ⟨i, hf, hcomp⟩⟩
    · exact ⟨hrun, .inr ⟨c, ht, .inr ⟨i, hf, hr⟩⟩⟩

/-! #### The causes of an abort -/

/-- The fault an instruction raises is a register byte that names none, or the address of a PUSH or a POP outside memory
(60_exceptions.md R171 to R173). -/
theorem Raises.cause_cases {i : Instr} {s : State} {c : Cause} (h : Raises s i c) :
    (∃ b ∈ regOperands i, Config.numRegs ≤ b.toNat ∧ c = .invalidRegister b) ∨
    (∃ b, i = .push b ∧ ¬ inMemory (pushAddr s) ∧ c = .outOfBounds (pushAddr s)) ∨
    (∃ b, i = .pop b ∧ Config.memSize ≤ s.sp ∧ c = .outOfBounds (popAddr s)) := by
  cases h with
  | pushAddress _ hout => exact .inr (.inl ⟨_, rfl, hout, rfl⟩)
  | popAddress b hsp => exact .inr (.inr ⟨b, rfl, hsp, rfl⟩)
  | addFirst _ hb | multiplyFirst _ hb | compareFirst _ hb | loadImmediate _ hb | addSecond _ hb | multiplySecond _ hb
  | compareSecond _ hb | popRegister _ hb | jumpIfEqual _ hb | jumpIfNotEqual _ hb | printReg hb | pushRegister hb
  | jump hb => exact .inl ⟨_, by simp [regOperands], hb, rfl⟩

/-- With `sp` inside its range an instruction's fault leaves a legal record (60_exceptions.md R172). -/
theorem Raises.recordLegal {i : Instr} {s : State} {c : Cause} (h : Raises s i c) (hsp : s.sp ≤ Config.memSize) :
    abortRecordLegal (causeRecord c) := by
  obtain ⟨b, -, hb, rfl⟩ | ⟨b, -, hout, rfl⟩ | ⟨b, -, hge, rfl⟩ := h.cause_cases
  · exact .inr (.inr ⟨rfl, b, hb, rfl⟩)
  · have haddr : pushAddr s = -1 := by simp only [inMemory, pushAddr] at hout ⊢; omega
    exact .inr (.inl ⟨rfl, .inl (congrArg some haddr)⟩)
  · have haddr : popAddr s = Config.memSize := by simp only [popAddr]; omega
    exact .inr (.inl ⟨rfl, .inr (congrArg some haddr)⟩)

/-- With `pc` inside its range a fetch's fault leaves a legal record (60_exceptions.md R171, R172). -/
theorem fetch_error_recordLegal {opc : OpcodeMap} {s : State} {c : Cause} (h : fetch opc s = .error c)
    (hpc : s.pc ≤ Config.memSize) : abortRecordLegal (causeRecord c) := by
  have hend {a : Int} (ha : a = Config.memSize) : abortRecordLegal (causeRecord (.outOfBounds a)) :=
    .inr (.inl ⟨rfl, .inr (congrArg some ha)⟩)
  obtain ⟨hge, he⟩ | ⟨-, -, he⟩ | ⟨-, m, -, ⟨ha, he⟩ | ⟨ha, he⟩ | ⟨-, he⟩⟩ := fetch_cases opc s <;>
    rw [he] at h <;> cases h
  · exact hend (by omega)
  · exact .inl ⟨rfl, _, rfl⟩
  · exact hend (by omega)
  · exact hend (by omega)

/-! #### What a completed instruction does to the fields the invariant bounds -/

/-- A completed instruction keeps the canonical form of memory: PUSH, the only writer, writes inside memory. -/
theorem Completes.mem_wf {i : Instr} {s t : State} (h : Completes s i t) (hwf : s.mem.wf = true) : t.mem.wf = true := by
  cases h with
  | push i hin =>
    obtain ⟨hlo, hhi⟩ := hin
    exact Memory.wf_set hwf (by unfold pushAddr at hlo hhi; omega)
  | _ => exact hwf

/-- A completed instruction that was fetched whole leaves `pc` inside its range: it goes on after its own bytes, or to a byte
value. -/
theorem Completes.pc_le {i : Instr} {s t : State} (h : Completes s i t) (hpc : s.pc + 2 < Config.memSize) :
    t.pc ≤ Config.memSize := by
  have hjump (k : Fin Config.numRegs) : (s.reg k).toNat ≤ Config.memSize := Nat.le_of_lt (s.reg k).isLt
  cases h with
  | jump k | jumpIfEqualTaken k | jumpIfNotEqualTaken k => exact hjump k
  | halt => exact Nat.le_of_lt (Nat.lt_of_add_right_lt hpc)
  | loadImmediate | add | multiply | compare => exact hpc
  | printReg | push | pop | jumpIfEqualNotTaken | jumpIfNotEqualNotTaken => exact Nat.le_of_lt hpc

/-- A completed instruction leaves `sp` inside its range: a POP completes only below `MEM_SIZE`. -/
theorem Completes.sp_le {i : Instr} {s t : State} (h : Completes s i t) (hsp : s.sp ≤ Config.memSize) :
    t.sp ≤ Config.memSize := by
  cases h with
  | push => exact (Nat.sub_le _ _).trans hsp
  | pop _ hlt => exact hlt
  | _ => exact hsp

/-- A completed instruction leaves `run` as it was, but for HALT. -/
theorem Completes.run_cases {i : Instr} {s t : State} (h : Completes s i t) :
    (i = .halt ∧ t.run = .halted) ∨ (i ≠ .halt ∧ t.run = s.run) := by
  cases h with
  | halt => exact .inl ⟨rfl, rfl⟩
  | _ => exact .inr ⟨nofun, rfl⟩

/-- An instruction that completes does not enter ABORTED. -/
theorem Completes.run_ne_aborted {i : Instr} {s t : State} (h : Completes s i t) (hs : s.run ≠ .aborted) :
    t.run ≠ .aborted := by
  obtain ⟨-, ht⟩ | ⟨-, ht⟩ := h.run_cases
  · simp [ht]
  · rwa [ht]

/-! #### The invariant -/

/-- An abort entry with a legal record keeps the invariant. -/
theorem Inv.takeAbort {s : State} {c : Cause} (h : Inv s) (hc : abortRecordLegal (causeRecord c)) :
    Inv (takeAbort c s) :=
  { h with abortOk := fun _ => hc }

/-- Settles O37: a completed instruction keeps each clause, and an abort changes only the record, which is legal. -/
theorem everyStepKeepsTheInvariant : Obligations.EveryStepKeepsTheInvariant := by
  unfold Obligations.EveryStepKeepsTheInvariant
  intro opc s t hinv hstep
  obtain ⟨hrun, ⟨i, hf, hcomp⟩ | ⟨c, rfl, hf | ⟨i, -, hr⟩⟩⟩ := stepWith_next_cases hstep
  · obtain ⟨-, hstepFlags, -⟩ := flagTripleStaysOneOfFour
    obtain ⟨hflags, -⟩ := hstepFlags opc s t hstep
    have hrun' : t.run ≠ .aborted := hcomp.run_ne_aborted (by simp [hrun])
    exact {
      memWf := hcomp.mem_wf hinv.memWf
      pcLe := hcomp.pc_le (fetch_ok_pc hf)
      spLe := hcomp.sp_le hinv.spLe
      flagsOk := hflags hinv.flagsOk
      abortOk := fun h => absurd h hrun' }
  · exact hinv.takeAbort (fetch_error_recordLegal hf hinv.pcLe)
  · exact hinv.takeAbort (hr.recordLegal hinv.spLe)

end Sys2Proof.Machine

/-! ### Decode and encode agree (30_encoding.md R75 to R78, R81) -/

namespace Sys2Proof.Machine

/-! #### The bytes of an instruction -/

/-- An instruction's bytes followed by two more are its opcode, the two bytes it is built from, and after its operands the bytes
that follow. -/
theorem encodeWith_append_window (opc : OpcodeMap) (i : Instr) (f1 f2 : Byte) (tail : List Byte) :
    ∃ b1 b2 rest, encodeWith opc i ++ f1 :: f2 :: tail = opc (mnemonicOf i) :: b1 :: b2 :: rest ∧
      buildInstr (mnemonicOf i) b1 b2 = i ∧ (b1 :: b2 :: rest).drop (operandCount (mnemonicOf i)) = f1 :: f2 :: tail := by
  cases i <;> exact ⟨_, _, _, rfl, rfl, rfl⟩

/-- Three bytes of which the first is a mnemonic's opcode are the encoding of what they build, then the bytes after its operands. -/
theorem encodeWith_buildInstr_append (opc : OpcodeMap) (m : Mnemonic) (b1 b2 : Byte) (tail : List Byte) :
    encodeWith opc (buildInstr m b1 b2) ++ (b1 :: b2 :: tail).drop (operandCount m) = opc m :: b1 :: b2 :: tail := by
  cases m <;> rfl

@[simp] theorem mnemonicOf_buildInstr (m : Mnemonic) (b1 b2 : Byte) : mnemonicOf (buildInstr m b1 b2) = m := by
  cases m <;> rfl

/-- Decoding three bytes or more answers an instruction exactly when the look-up finds the first, and then builds it from the
other two. -/
theorem decodeBytesWith_eq_ok {opc : OpcodeMap} {op b1 b2 : Byte} {tail : List Byte} {r : Instr × List Byte} :
    decodeBytesWith opc (op :: b1 :: b2 :: tail) = .ok r ↔
      ∃ m, lookupOpcode opc op = some m ∧ (buildInstr m b1 b2, (b1 :: b2 :: tail).drop (operandCount m)) = r := by
  cases h : lookupOpcode opc op <;> simp [decodeBytesWith, h]

/-- Settles O9: the look-up finds the opcode of the instruction, and its operand bytes build it back. -/
theorem decodingAnEncodedInstructionGivesItBack : Obligations.DecodingAnEncodedInstructionGivesItBack := by
  unfold Obligations.DecodingAnEncodedInstructionGivesItBack
  rintro opc ⟨hinj, -⟩ i f1 f2 tail
  have hl : lookupOpcode opc (opc (mnemonicOf i)) = some (mnemonicOf i) := (lookupOpcode_eq_some hinj).mpr rfl
  refine ⟨?list, fun op b1 b2 rest hwindow => ?window⟩
  case list =>
    obtain ⟨b1, b2, rest, happ, hbuild, hdrop⟩ := encodeWith_append_window opc i f1 f2 tail
    rw [happ]
    exact decodeBytesWith_eq_ok.mpr ⟨mnemonicOf i, hl, by rw [hbuild, hdrop]⟩
  case window =>
    obtain ⟨c1, c2, rest', happ, hbuild, -⟩ := encodeWith_append_window opc i f1 f2 []
    obtain ⟨rfl, rfl, rfl, -⟩ : op = opc (mnemonicOf i) ∧ b1 = c1 ∧ b2 = c2 ∧ rest = rest' := by
      simpa using hwindow.symm.trans happ
    exact decodeWith_eq_ok.mpr ⟨mnemonicOf i, hl, hbuild⟩

/-- Settles O10: a byte the look-up finds is that mnemonic's opcode, under any map, so the bytes are the encoding and the rest. -/
theorem decodedBytesBeginWithTheEncoding : Obligations.DecodedBytesBeginWithTheEncoding := by
  unfold Obligations.DecodedBytesBeginWithTheEncoding
  intro opc op b1 b2 tail i rest hdec
  obtain ⟨m, hm, hr⟩ := decodeBytesWith_eq_ok.mp hdec
  obtain ⟨rfl, rfl⟩ := Prod.mk.inj hr
  obtain rfl : op = opc m := eq_of_lookupOpcode hm
  exact ⟨(encodeWith_buildInstr_append opc m b1 b2 tail).symm, decodeWith_eq_ok.mpr ⟨m, hm, rfl⟩⟩

/-! #### Lengths -/

/-- An encoding has the length of its mnemonic, 1 + operand count. -/
theorem encodeWith_length (opc : OpcodeMap) (i : Instr) : (encodeWith opc i).length = instrLength (mnemonicOf i) := by
  cases i <;> rfl

/-- Settles O13: the lengths by the table; decoding drops the operand bytes after the opcode, and an encoding has that length. -/
theorem lengthFollowsFromTheOpcode : Obligations.LengthFollowsFromTheOpcode := by
  unfold Obligations.LengthFollowsFromTheOpcode
  refine ⟨rfl, by decide, by decide, fun opc op b1 b2 tail m hm => ?_, encodeWith_length⟩
  refine ⟨buildInstr m b1 b2, decodeBytesWith_eq_ok.mpr ⟨m, hm, ?_⟩, mnemonicOf_buildInstr m b1 b2⟩
  rw [instrLength, Nat.add_comm, List.drop_succ_cons]

/-- Settles O8: each word by its look-up in the default map and the two bytes after it. -/
theorem wordsFromTheSpecDecode : Obligations.WordsFromTheSpecDecode := by
  unfold Obligations.WordsFromTheSpecDecode
  exact ⟨rfl, rfl, rfl, rfl, rfl, rfl, rfl⟩

/-! #### The illegal opcode bytes -/

/-- The opcode bytes of a map, as integers. -/
def opcodeValues (opc : OpcodeMap) : List Nat := allMnemonics.map fun m => (opc m).toNat

theorem mem_opcodeValues {opc : OpcodeMap} {n : Nat} : n ∈ opcodeValues opc ↔ ∃ m, (opc m).toNat = n := by
  simp [opcodeValues, mem_allMnemonics]

/-- The look-up finds nothing exactly for a byte whose value is no opcode's. -/
theorem lookupOpcode_isNone_iff {opc : OpcodeMap} {n : Nat} (hn : n < 256) :
    (lookupOpcode opc (BitVec.ofNat 8 n)).isNone = true ↔ n ∉ opcodeValues opc := by
  rw [Option.isNone_iff_eq_none, lookupOpcode_eq_none, mem_opcodeValues, not_exists]
  refine forall_congr' fun m => not_congr ?_
  rw [← BitVec.toNat_inj, BitVec.toNat_ofNat, Nat.mod_eq_of_lt hn]

/-- In a map of distinct bytes the 11 opcodes are 11 of the 256 byte values. -/
theorem filter_mem_opcodeValues_length {opc : OpcodeMap} (hinj : Function.Injective opc) :
    ((List.range 256).filter (· ∈ opcodeValues opc)).length = 11 := by
  have hnodup : (opcodeValues opc).Nodup :=
    (show allMnemonics.Nodup by decide).map fun m m' h => hinj (BitVec.eq_of_toNat_eq h)
  have hperm : ((List.range 256).filter (· ∈ opcodeValues opc)).Perm (opcodeValues opc) := by
    refine (List.perm_ext_iff_of_nodup (List.nodup_range.filter _) hnodup).mpr fun n => ?_
    have hlt : n ∈ opcodeValues opc → n < 256 := by
      rintro h
      obtain ⟨m, rfl⟩ := mem_opcodeValues.mp h
      exact (opc m).isLt
    simpa using hlt
  simpa [opcodeValues, allMnemonics] using hperm.length_eq

/-- The other 245 byte values are found by no look-up (30_encoding.md R81). -/
theorem illegalOpcodes_length {opc : OpcodeMap} (hinj : Function.Injective opc) :
    ((List.range 256).filter fun n => (lookupOpcode opc (BitVec.ofNat 8 n)).isNone).length = 245 := by
  have hsplit := List.length_eq_length_filter_add (l := List.range 256) (· ∈ opcodeValues opc)
  rw [List.length_range, filter_mem_opcodeValues_length hinj] at hsplit
  have hnone : ((List.range 256).filter fun n => (lookupOpcode opc (BitVec.ofNat 8 n)).isNone) =
      (List.range 256).filter fun n => !decide (n ∈ opcodeValues opc) := by
    refine List.filter_congr fun n hn => ?_
    rw [Bool.eq_iff_iff, lookupOpcode_isNone_iff (List.mem_range.mp hn)]
    simp
  rw [hnone]
  omega

/-- Settles O12: the count by the 11 distinct opcodes, and a byte that is no opcode aborts the step that fetches it. -/
theorem otherOpcodeBytesAreIllegal : Obligations.OtherOpcodeBytesAreIllegal := by
  unfold Obligations.OtherOpcodeBytesAreIllegal
  rintro opc ⟨hinj, hff⟩
  exact ⟨illegalOpcodes_length hinj, lookupOpcode_eq_none.mpr hff,
    fun s hrun hpc hno => stepWith_of_lookup_none hrun hpc (lookupOpcode_eq_none.mpr hno)⟩

end Sys2Proof.Machine

/-! ### Aborts (60_exceptions.md R170 to R177, 40_engine_and_dispatch.md R108) -/

namespace Sys2Proof.Machine

/-- In RUNNING a step whose fetch raised a fault is its abort entry. -/
theorem stepWith_of_fetch_error {opc : OpcodeMap} {s : State} {c : Cause} (hrun : s.run = .running)
    (hf : fetch opc s = .error c) : stepWith opc s = .next (takeAbort c s) := by
  simp [stepWith, hrun, hf]

/-- A fetch whose `pc` is outside memory answers OutOfBounds of it (40_engine_and_dispatch.md R101). -/
theorem fetch_of_pc_ge {opc : OpcodeMap} {s : State} (hpc : Config.memSize ≤ s.pc) :
    fetch opc s = .error (.outOfBounds (s.pc : Int)) := by
  obtain ⟨-, h⟩ | ⟨hlt, -⟩ | ⟨hlt, -⟩ := fetch_cases opc s
  · exact h
  · omega
  · omega

/-- A fetch of a known opcode in the last two bytes of memory answers OutOfBounds of `MEM_SIZE` (decision D7). -/
theorem fetch_of_lookup_last_two {opc : OpcodeMap} {s : State} (hpc : s.pc = 254 ∨ s.pc = 255)
    (hl : lookupOpcode opc (s.mem.get s.pc) ≠ none) : fetch opc s = .error (.outOfBounds 256) := by
  have hsize : Config.memSize = 256 := rfl
  obtain ⟨hge, -⟩ | ⟨-, hnone, -⟩ | ⟨-, m, -, ⟨hend, h⟩ | ⟨hend, h⟩ | ⟨hlt, -⟩⟩ := fetch_cases opc s
  · omega
  · exact absurd hnone hl
  · rw [h, show (s.pc : Int) + 1 = 256 by omega]
  · rw [h, show (s.pc : Int) + 2 = 256 by omega]
  · omega

/-- Settles O33: the fetch's answer by its `pc` and the look-up, each an abort entry. -/
theorem fetchFaultsInTheirOrder : Obligations.FetchFaultsInTheirOrder := by
  unfold Obligations.FetchFaultsInTheirOrder
  intro opc s hrun
  exact ⟨fun hpc => stepWith_of_fetch_error hrun (fetch_of_pc_ge hpc),
    fun hpc hl => stepWith_of_lookup_none hrun hpc hl,
    fun hpc hl => stepWith_of_fetch_error hrun (fetch_of_lookup_last_two hpc hl)⟩

/-- Settles O34: an instruction that completed did not enter ABORTED, so the step was an abort entry. -/
theorem abortedStepCommitsNothing : Obligations.AbortedStepCommitsNothing := by
  unfold Obligations.AbortedStepCommitsNothing
  intro opc s t hstep habort
  obtain ⟨hrun, ⟨i, -, hcomp⟩ | ⟨c, rfl, -⟩⟩ := stepWith_next_cases hstep
  · exact absurd habort (hcomp.run_ne_aborted (by simp [hrun]))
  · rfl

/-- Every register operand of a well-formed instruction names a register. -/
theorem lt_of_wellFormed {i : Instr} {b : Byte} (hwf : wellFormed i = true) (hb : b ∈ regOperands i) :
    b.toNat < Config.numRegs := by
  simpa [isRegOperand] using List.all_eq_true.mp hwf b hb

/-- Settles O35: of the three causes of an instruction's abort, the register byte is excluded by well-formedness. -/
theorem wellFormedInstructionsAbortOnlyOnTheStack : Obligations.WellFormedInstructionsAbortOnlyOnTheStack := by
  unfold Obligations.WellFormedInstructionsAbortOnlyOnTheStack
  intro i s t hwf hs hexec habort
  obtain hcomp | ⟨c, hr, -⟩ := exec_next_cases hexec
  · exact absurd habort (hcomp.run_ne_aborted hs)
  · obtain ⟨b, hmem, hge, -⟩ | ⟨r, hi, hout, -⟩ | ⟨r, hi, hsp, -⟩ := hr.cause_cases
    · exact absurd (lt_of_wellFormed hwf hmem) (Nat.not_lt.mpr hge)
    · have hsize : Config.memSize = 256 := rfl
      have hsp : s.sp = 0 ∨ 256 < s.sp := by simp only [inMemory, pushAddr] at hout; omega
      exact .inl ⟨r, hi, hsp⟩
    · exact .inr ⟨r, hi, hsp⟩

/-- A completed instruction leaves the abort record as it was. -/
theorem Completes.abort_eq {i : Instr} {s t : State} (h : Completes s i t) : t.abort = s.abort := by
  cases h <;> rfl

/-- A fetch does not raise UnsupportedOperation (60_exceptions.md R174). -/
theorem fetch_error_ne_unsupported {opc : OpcodeMap} {s : State} {c : Cause} (h : fetch opc s = .error c) :
    c ≠ .unsupportedOperation := by
  obtain ⟨-, he⟩ | ⟨-, -, he⟩ | ⟨-, m, -, ⟨-, he⟩ | ⟨-, he⟩ | ⟨-, he⟩⟩ := fetch_cases opc s <;>
    rw [he] at h <;> cases h <;> exact nofun

/-- No instruction raises UnsupportedOperation (60_exceptions.md R174). -/
theorem Raises.ne_unsupported {i : Instr} {s : State} {c : Cause} (h : Raises s i c) : c ≠ .unsupportedOperation := by
  cases h <;> exact nofun

/-- Every cause but UnsupportedOperation has the code 1, 2 or 3 (decision D10). -/
theorem causeRecord_code {c : Cause} (hc : c ≠ .unsupportedOperation) :
    (causeRecord c).code = 1 ∨ (causeRecord c).code = 2 ∨ (causeRecord c).code = 3 := by
  cases c with
  | unknownOpcode => exact .inl rfl
  | outOfBounds => exact .inr (.inl rfl)
  | invalidRegister => exact .inr (.inr rfl)
  | unsupportedOperation => exact absurd rfl hc

/-- Settles O36: a step that changes the record is an abort entry, and neither a fetch nor an instruction raises the fourth cause. -/
theorem unsupportedOperationIsNeverRaised : Obligations.UnsupportedOperationIsNeverRaised := by
  unfold Obligations.UnsupportedOperationIsNeverRaised
  intro opc s t hstep hchange
  obtain ⟨-, ⟨i, -, hcomp⟩ | ⟨c, rfl, hf | ⟨i, -, hr⟩⟩⟩ := stepWith_next_cases hstep
  · exact absurd hcomp.abort_eq hchange
  · exact causeRecord_code (fetch_error_ne_unsupported hf)
  · exact causeRecord_code hr.ne_unsupported

/-- Settles O32: abort entry writes `run` and the record, whose code and information are the cause's. -/
theorem abortEntryWritesTheRecord : Obligations.AbortEntryWritesTheRecord := by
  unfold Obligations.AbortEntryWritesTheRecord
  intro s c
  refine ⟨rfl, ?_, ?_, ?_, ?_⟩
  · rintro op rfl; rfl
  · rintro addr rfl; rfl
  · rintro b rfl; rfl
  · rintro rfl; rfl

end Sys2Proof.Machine

/-! ### Who writes what, and what only grows or does not matter (10_state.md R23, R28, R31 to R33) -/

namespace Sys2Proof.Machine

/-! #### The writers of each field -/

/-- A completed instruction leaves every register but the written ones as it was (10_state.md R23). -/
theorem Completes.reg_eq {i : Instr} {s t : State} (h : Completes s i t) {k : Fin Config.numRegs}
    (hk : regByte k ∉ writtenRegs i) : t.reg k = s.reg k := by
  have hset (j : Fin Config.numRegs) (v : Byte) (hj : regByte k ≠ regByte j) :
      (s.withRegs (s.regs.set j v)).reg k = s.reg k := by
    rw [State.reg_set, if_neg (fun hkj => hj (congrArg regByte hkj))]
  cases h with
  | loadImmediate j v => exact hset j v (by simpa [writtenRegs] using hk)
  | add j l | multiply j l | pop j => exact hset j _ (by simpa [writtenRegs] using hk)
  | _ => rfl

/-- A completed instruction other than PUSH and POP leaves `sp` as it was. -/
theorem Completes.sp_cases {i : Instr} {s t : State} (h : Completes s i t) :
    t.sp = s.sp ∨ ∃ r, i = .push r ∨ i = .pop r := by
  cases h with
  | push j => exact .inr ⟨_, .inl rfl⟩
  | pop j => exact .inr ⟨_, .inr rfl⟩
  | _ => exact .inl rfl

/-- A completed instruction leaves the output stream as it was, but for PRINT_REG, which appends its register's value. -/
theorem Completes.out_cases {i : Instr} {s t : State} (h : Completes s i t) :
    t.out = s.out ∨ ∃ k, i = .printReg (regByte k) ∧ t.out = s.out ++ [s.reg k] := by
  cases h with
  | printReg k => exact .inr ⟨k, rfl, rfl⟩
  | _ => exact .inl rfl

/-- A completed HALT leaves `pc` as it was (decision D6). -/
theorem Completes.halt_pc {s t : State} (h : Completes s .halt t) : t.pc = s.pc := by
  cases h; rfl

/-- Settles O40: field by field for an instruction that completed; an abort writes `run` and the record alone. -/
theorem eachStateHasItsOnlyWriters : Obligations.EachStateHasItsOnlyWriters := by
  unfold Obligations.EachStateHasItsOnlyWriters
  intro i s t hexec
  obtain hcomp | ⟨c, -, rfl⟩ := exec_next_cases hexec
  case inr => exact ⟨fun k hk => absurd rfl hk, by simp⟩
  case inl =>
    refine ⟨fun k hk => ?regs, fun hsp => ?sp, fun hflags => ?flags, fun hmem => ?mem, fun hout => ?out, fun hrun => ?run,
      fun hab => absurd hcomp.abort_eq hab, fun hpc => ?pc⟩
    case regs =>
      by_contra hnot
      exact hk (hcomp.reg_eq hnot)
    case sp => exact hcomp.sp_cases.resolve_left hsp
    case flags =>
      by_contra hnot
      push Not at hnot
      obtain ⟨u, hu, hkeep⟩ := exec_keeps_flags hnot s
      obtain rfl : t = u := by simpa [hexec] using hu
      exact hflags hkeep
    case mem =>
      by_contra hnot
      push Not at hnot
      obtain ⟨-, -, hkeep⟩ := memWriteContract
      exact hmem (hkeep i s t hexec hnot)
    case out => exact hcomp.out_cases.resolve_left hout
    case run => exact .inl (hcomp.run_cases.resolve_right fun ⟨_, hkeep⟩ => hrun hkeep)
    case pc =>
      obtain ⟨rfl, -⟩ | ⟨hi, hrun⟩ := hcomp.run_cases
      · exact absurd hcomp.halt_pc hpc
      · exact ⟨hi, hrun, hcomp.abort_eq⟩

/-- HALT raises no fault. -/
theorem not_raises_halt {s : State} {c : Cause} : ¬ Raises s .halt c := nofun

/-- Settles O41: the only completed instruction that leaves RUNNING is HALT, and HALT raises no fault. -/
theorem onlyHaltEntersHalted : Obligations.OnlyHaltEntersHalted := by
  unfold Obligations.OnlyHaltEntersHalted
  intro opc s t hstep
  obtain ⟨hrun, ⟨i, hf, hcomp⟩ | ⟨c, rfl, hf⟩⟩ := stepWith_next_cases hstep
  · rw [hf, Except.ok.injEq]
    obtain ⟨hi, hhalt⟩ | ⟨hi, hkeep⟩ := hcomp.run_cases
    · exact iff_of_true hhalt hi
    · exact iff_of_false (by simp [hkeep, hrun]) hi
  · refine iff_of_false (by simp) fun hhalt => ?_
    obtain he | ⟨i, hi, hr⟩ := hf
    · rw [he] at hhalt; cases hhalt
    · obtain rfl : i = .halt := by simpa [hi] using hhalt
      exact not_raises_halt hr

/-! #### Runs of many steps -/

@[simp] theorem core_run_zero (s : State) : Host.Core.run Sys2Proof.core 0 s = .next s := rfl

/-- A run of `n + 1` steps is one step and a run of `n`. -/
theorem core_run_succ {n : Nat} {s t : State} : Host.Core.run Sys2Proof.core (n + 1) s = .next t ↔
    ∃ u, step s = .next u ∧ Host.Core.run Sys2Proof.core n u = .next t := by
  have hcore : Sys2Proof.core.step s = step s := rfl
  cases h : step s with
  | next u => simp [Host.Core.run, hcore, h]
  | fault r => simp [Host.Core.run, hcore, h]
  | refused r => simp [Host.Core.run, hcore, h]

/-- A step appends at most one value to the output stream. -/
theorem stepWith_out {opc : OpcodeMap} {s t : State} (h : stepWith opc s = .next t) :
    s.out <+: t.out ∧ t.out.length ≤ s.out.length + 1 := by
  obtain ⟨-, ⟨i, -, hcomp⟩ | ⟨c, rfl, -⟩⟩ := stepWith_next_cases h
  · obtain hkeep | ⟨k, -, happ⟩ := hcomp.out_cases
    · simp [hkeep]
    · simp [happ]
  · simp

/-- Settles O42: by induction on the number of steps, each appending at most one value. -/
theorem outputOnlyGrows : Obligations.OutputOnlyGrows := by
  unfold Obligations.OutputOnlyGrows
  intro n
  induction n with
  | zero =>
    intro s t h
    cases h
    simp
  | succ n ih =>
    intro s t h
    obtain ⟨u, hstep, hrun⟩ := core_run_succ.mp h
    obtain ⟨hpre, hlen⟩ := stepWith_out hstep
    obtain ⟨hpre', hlen'⟩ := ih u t hrun
    exact ⟨hpre.trans hpre', hlen'.trans (by omega)⟩

/-! #### The Less and Greater flags -/

/-- Two states agree on all but L and G exactly when the second is the first with flags of the same E. -/
theorem sameButLessGreater_iff {s s' : State} :
    sameButLessGreater s s' ↔ ∃ f : Flags, f.equal = s.flags.equal ∧ s' = s.withFlags f := by
  unfold sameButLessGreater
  constructor
  · intro h
    exact ⟨{ s.flags with less := s'.flags.less, greater := s'.flags.greater }, rfl, h⟩
  · rintro ⟨⟨e, l, g⟩, rfl, rfl⟩
    rfl

/-- The fetch does not read the flags. -/
theorem fetch_withFlags (opc : OpcodeMap) (s : State) (f : Flags) : fetch opc (s.withFlags f) = fetch opc s := rfl

/-- An instruction that completes does so with other L and G too, and what it leaves differs at most there. -/
theorem Completes.withFlags {i : Instr} {s t : State} (h : Completes s i t) {f : Flags} (hf : f.equal = s.flags.equal) :
    ∃ t', Completes (s.withFlags f) i t' ∧ sameButLessGreater t t' := by
  suffices ∃ g : Flags, g.equal = t.flags.equal ∧ Completes (s.withFlags f) i (t.withFlags g) by
    obtain ⟨g, hg, hcomp⟩ := this
    exact ⟨_, hcomp, sameButLessGreater_iff.mpr ⟨g, hg, rfl⟩⟩
  cases h with
  | halt => exact ⟨f, hf, .halt⟩
  | loadImmediate i v => exact ⟨f, hf, .loadImmediate i v⟩
  | printReg i => exact ⟨f, hf, .printReg i⟩
  | add i j => exact ⟨f, hf, .add i j⟩
  | multiply i j => exact ⟨f, hf, .multiply i j⟩
  | push i hin => exact ⟨f, hf, .push i hin⟩
  | pop i hsp => exact ⟨f, hf, .pop i hsp⟩
  | jump i => exact ⟨f, hf, .jump i⟩
  | compare i j => exact ⟨_, rfl, .compare i j⟩
  | jumpIfEqualTaken i he => exact ⟨f, hf, .jumpIfEqualTaken i (hf.trans he)⟩
  | jumpIfEqualNotTaken b he => exact ⟨f, hf, .jumpIfEqualNotTaken b (hf.trans he)⟩
  | jumpIfNotEqualTaken i he => exact ⟨f, hf, .jumpIfNotEqualTaken i (hf.trans he)⟩
  | jumpIfNotEqualNotTaken b he => exact ⟨f, hf, .jumpIfNotEqualNotTaken b (hf.trans he)⟩

/-- An instruction that raises a fault raises the same with other L and G: of the flags only E decides whether an operand is
examined. -/
theorem Raises.withFlags {i : Instr} {s : State} {c : Cause} (h : Raises s i c) {f : Flags} (hf : f.equal = s.flags.equal) :
    Raises (s.withFlags f) i c := by
  cases h with
  | jumpIfEqual he hb => exact .jumpIfEqual (hf.trans he) hb
  | jumpIfNotEqual he hb => exact .jumpIfNotEqual (hf.trans he) hb
  | pushAddress hb hout => exact .pushAddress hb hout
  | popAddress b hsp => exact .popAddress b hsp
  | _ => constructor <;> assumption

/-- An abort entry keeps whatever flags the state had, so it keeps the agreement on all but L and G. -/
theorem sameButLessGreater_takeAbort {s s' : State} (h : sameButLessGreater s s') (c : Cause) :
    sameButLessGreater (takeAbort c s) (takeAbort c s') := by
  obtain ⟨f, hf, rfl⟩ := sameButLessGreater_iff.mp h
  exact sameButLessGreater_iff.mpr ⟨f, hf, rfl⟩

/-- One step from two states that differ at most in L and G leads to two that do. -/
theorem stepWith_sameButLessGreater {opc : OpcodeMap} {s s' t : State} (hsame : sameButLessGreater s s')
    (h : stepWith opc s = .next t) : ∃ t', stepWith opc s' = .next t' ∧ sameButLessGreater t t' := by
  obtain ⟨f, hf, rfl⟩ := sameButLessGreater_iff.mp hsame
  obtain ⟨hrun, hcases⟩ := stepWith_next_cases h
  have hrun' : (s.withFlags f).run = .running := hrun
  have hexec {i : Instr} (hi : fetch opc s = .ok i) : stepWith opc (s.withFlags f) = exec i (s.withFlags f) := by
    simp [stepWith, hrun, fetch_withFlags, hi]
  obtain ⟨i, hi, hcomp⟩ | ⟨c, rfl, herr | ⟨i, hi, hr⟩⟩ := hcases
  · obtain ⟨t', hcomp', hsame'⟩ := hcomp.withFlags hf
    exact ⟨t', (hexec hi).trans hcomp'.exec, hsame'⟩
  · exact ⟨_, stepWith_of_fetch_error hrun' herr, sameButLessGreater_takeAbort hsame c⟩
  · exact ⟨_, (hexec hi).trans (hr.withFlags hf).exec, sameButLessGreater_takeAbort hsame c⟩

/-- Settles O43: by induction on the number of steps, each step keeping the agreement. -/
theorem lessAndGreaterInfluenceNothing : Obligations.LessAndGreaterInfluenceNothing := by
  unfold Obligations.LessAndGreaterInfluenceNothing
  intro n
  induction n with
  | zero =>
    intro s s' t hsame h
    cases h
    exact ⟨s', rfl, hsame⟩
  | succ n ih =>
    intro s s' t hsame h
    obtain ⟨u, hstep, hrun⟩ := core_run_succ.mp h
    obtain ⟨u', hstep', hsame'⟩ := stepWith_sameButLessGreater hsame hstep
    obtain ⟨t', hrun', hsame''⟩ := ih u u' t hsame' hrun
    exact ⟨t', core_run_succ.mpr ⟨u', hstep', hrun'⟩, hsame''⟩

end Sys2Proof.Machine

/-! ### Reset, loading, and when a step happens (10_state.md R38, 70_reset_and_hazards.md R200 to R202) -/

namespace Sys2Proof.Machine

/-! #### Memory in its canonical form -/

@[simp] theorem Memory.get_cons_self (b : Nat) (w : Byte) (m : Memory) : Memory.get ((b, w) :: m) b = w := if_pos rfl

/-- An address that does not read the reset contents is not below the canonical form's lower bound. -/
theorem Memory.le_of_get_ne {lo a : Nat} {m : Memory} (h : Memory.wfFrom lo m = true)
    (ha : Memory.get m a ≠ Config.unlistedByte) : lo ≤ a := by
  by_contra hlt
  exact ha (Memory.get_below h (Nat.not_le.mp hlt))

/-- Canonical memories that read alike are the same list, entry by entry: the first entry of each is the first address that
does not read the reset contents. -/
theorem Memory.eq_of_get_eq {lo lo' : Nat} {m m' : Memory} (h : Memory.wfFrom lo m = true) (h' : Memory.wfFrom lo' m' = true)
    (hget : ∀ a, Memory.get m a = Memory.get m' a) : m = m' := by
  induction m generalizing lo lo' m' with
  | nil =>
    cases m' with
    | nil => rfl
    | cons c' m' =>
      obtain ⟨b', w'⟩ := c'
      obtain ⟨-, -, hw', -⟩ := Memory.wfFrom_cons.mp h'
      exact absurd (by simpa [Memory.get] using (hget b').symm) hw'
  | cons c m ih =>
    obtain ⟨b, w⟩ := c
    obtain ⟨-, hb, hw, htail⟩ := Memory.wfFrom_cons.mp h
    cases m' with
    | nil => exact absurd (by simpa [Memory.get] using hget b) hw
    | cons c' m' =>
      obtain ⟨b', w'⟩ := c'
      obtain ⟨-, hb', hw', htail'⟩ := Memory.wfFrom_cons.mp h'
      have hle : b ≤ b' := Memory.le_of_get_ne (Memory.wfFrom_cons.mpr ⟨le_rfl, hb, hw, htail⟩) (by simpa [hget] using hw')
      have hle' : b' ≤ b := Memory.le_of_get_ne (Memory.wfFrom_cons.mpr ⟨le_rfl, hb', hw', htail'⟩) (by simpa [← hget] using hw)
      obtain rfl : b = b' := Nat.le_antisymm hle hle'
      obtain rfl : w = w' := by simpa using hget b
      have hrest (a : Nat) : Memory.get m a = Memory.get m' a := by
        by_cases hab : a = b
        · subst hab
          rw [Memory.get_below htail (Nat.lt_succ_self a), Memory.get_below htail' (Nat.lt_succ_self a)]
        · simpa [Memory.get, hab] using hget a
      rw [ih htail htail' hrest]

/-- Settles O18: by induction on the first list, the second having the same first entry. -/
theorem canonicalMemoriesThatReadEqualAreEqual : Obligations.CanonicalMemoriesThatReadEqualAreEqual := by
  unfold Obligations.CanonicalMemoriesThatReadEqualAreEqual
  exact fun m m' h h' hget => Memory.eq_of_get_eq h h' hget

/-! #### The reset state -/

/-- Settles O1: each field of the reset state, all eight registers and all of memory holding 0. -/
theorem resetLeavesTheStartState : Obligations.ResetLeavesTheStartState := by
  unfold Obligations.ResetLeavesTheStartState
  exact ⟨by decide, rfl, rfl, rfl, fun _ => rfl, rfl, rfl⟩

/-- Settles O2: the clauses by evaluation; the reset state is not in ABORTED. -/
theorem resetMeetsTheInvariant : Obligations.ResetMeetsTheInvariant := by
  unfold Obligations.ResetMeetsTheInvariant
  exact {
    memWf := rfl
    pcLe := Nat.zero_le _
    spLe := by decide
    flagsOk := rfl
    abortOk := nofun }

/-! #### Loading -/

/-- What memory reads after a load from `a` on: the loaded bytes from there, what it read before anywhere else. -/
theorem Memory.get_loadBytes {bs : List Byte} {a : Nat} {m : Memory} (h : m.wf = true)
    (hlen : a + bs.length ≤ Config.memSize) (x : Nat) :
    (loadBytes bs a m).get x = if a ≤ x ∧ x < a + bs.length then bs.getD (x - a) 0 else m.get x := by
  induction bs generalizing a m with
  | nil =>
    rw [loadBytes, if_neg (by simp)]
  | cons b bs ih =>
    simp only [List.length_cons] at hlen ⊢
    rw [loadBytes, ih (Memory.wf_set h (by omega)) (by omega), Memory.get_set h]
    rcases Nat.lt_trichotomy x a with hlt | rfl | hgt
    · rw [if_neg (by omega), if_neg (by omega), if_neg (by omega)]
    · rw [if_neg (by omega), if_pos rfl, if_pos (by omega), Nat.sub_self, List.getD_cons_zero]
    · have hsub : x - a = (x - (a + 1)) + 1 := by omega
      rw [hsub, List.getD_cons_succ, if_neg (show x ≠ a by omega)]
      exact if_congr (by omega) rfl rfl

/-- Settles O3: memory after the load by `Memory.get_loadBytes` from the empty memory of reset; the other clauses of the
invariant are reset's. -/
theorem loadingWritesTheProgramFromAddressZero : Obligations.LoadingWritesTheProgramFromAddressZero := by
  unfold Obligations.LoadingWritesTheProgramFromAddressZero
  intro program
  refine ⟨fun hlen => ?fits, fun hlen => ?long⟩
  case long => exact if_neg (Nat.not_le.mpr hlen)
  case fits =>
    have hwf : State.reset.mem.wf = true := rfl
    have hfit : 0 + program.length ≤ Config.memSize := by rwa [Nat.zero_add]
    refine ⟨_, if_pos hlen, fun a => ?_, rfl,
      { resetMeetsTheInvariant with memWf := Memory.wf_loadBytes hwf hfit }⟩
    rw [State.withMem_mem, Memory.get_loadBytes hwf hfit]
    split
    next => rw [Nat.sub_zero]
    next hout => rw [List.getD_eq_default _ _ (by omega)]; rfl

/-! #### When a step happens -/

/-- Settles O4: no default opcode is the zero byte. -/
theorem zeroByteIsNoInstruction : Obligations.ZeroByteIsNoInstruction := by
  unfold Obligations.ZeroByteIsNoInstruction
  intro s hrun hpc hzero
  have hl : lookupOpcode opcodeOf (s.mem.get s.pc) = none := by rw [hzero]; decide
  have h := stepWith_of_lookup_none hrun hpc hl
  rw [hzero] at h
  exact h

/-- Settles O6: the two run states other than RUNNING. -/
theorem stepStopsByNameInTerminalStates : Obligations.StepStopsByNameInTerminalStates := by
  unfold Obligations.StepStopsByNameInTerminalStates
  intro s hrun
  cases hs : s.run with
  | running => exact absurd hs hrun
  | halted => simp [step, stepWith, hs]
  | aborted => simp [step, stepWith, hs]

/-- Settles O7: the step runs what its three bytes decode to, under any map and so under the default one. -/
theorem stepRunsTheDecodedInstruction : Obligations.StepRunsTheDecodedInstruction := by
  unfold Obligations.StepRunsTheDecodedInstruction
  exact ⟨fun opc s i hrun hpc hd => stepWith_of_decode_ok hrun hpc hd,
    fun s hpc hrun i hd => stepWith_of_decode_ok hrun hpc hd⟩

/-- Settles O21: HALT's meaning; at a HALT opcode the fetch answers HALT up to 253 and faults in the last two bytes. -/
theorem haltEntersHalted : Obligations.HaltEntersHalted := by
  unfold Obligations.HaltEntersHalted
  refine ⟨exec_halt_cases, ?_⟩
  rintro opc s ⟨hinj, -⟩ hrun hmem
  have hl : lookupOpcode opc (s.mem.get s.pc) = some .halt := (lookupOpcode_eq_some hinj).mpr hmem
  refine ⟨fun hpc => ?_, fun hpc => ?_⟩
  · have hsize : Config.memSize = 256 := rfl
    exact stepWith_of_decode_ok hrun (by omega) (decodeWith_eq_ok.mpr ⟨.halt, hl, rfl⟩)
  · exact stepWith_of_fetch_error hrun (fetch_of_lookup_last_two hpc (by simp [hl]))

end Sys2Proof.Machine

/-! ### The instructions one by one (41_halt_load_print.md, 42_alu.md, 43_stack.md, 44_compare_and_jumps.md) -/

namespace Sys2Proof.Machine

/-! #### PRINT_REG -/

/-- Settles O23: the completed PRINT_REG and its one fault. -/
theorem printRegAppendsTheValue : Obligations.PrintRegAppendsTheValue := by
  unfold Obligations.PrintRegAppendsTheValue
  exact ⟨fun s i => (Completes.printReg i).exec, fun s b hb => (Raises.printReg hb).exec⟩

/-! #### The ALU and ADD -/

/-- Add of the ALU is addition of bytes. -/
theorem alu_add_eq (a b : Byte) : alu .add a b = a + b := by
  rw [← BitVec.toNat_inj, alu_add_toNat, BitVec.toNat_add, wordRange]

/-- Multiply of the ALU is multiplication of bytes. -/
theorem alu_multiply_eq (a b : Byte) : alu .multiply a b = a * b := by
  rw [← BitVec.toNat_inj, alu_multiply_toNat, BitVec.toNat_mul, wordRange]

/-- Settles O20: the laws of addition and multiplication of bytes. -/
theorem aluLaws : Obligations.AluLaws := by
  unfold Obligations.AluLaws
  intro a b c
  simp only [alu_add_eq, alu_multiply_eq]
  have hneg : a + 255 = a - 1 := by bv_omega
  exact ⟨BitVec.add_comm a b, BitVec.add_assoc a b c, BitVec.add_zero a, hneg, BitVec.mul_comm a b, BitVec.mul_assoc a b c,
    BitVec.mul_zero, BitVec.mul_one a, BitVec.mul_add⟩

/-- Settles O24: the completed ADD writes the ALU's sum to the first register; the first byte from 8 up is the fault. -/
theorem addWritesTheSum : Obligations.AddWritesTheSum := by
  unfold Obligations.AddWritesTheSum
  refine ⟨fun s i j => ?_, fun s a b ha => (Raises.addFirst b ha).exec, fun s a b ha hb => (Raises.addSecond ha hb).exec⟩
  refine ⟨_, (Completes.add i j).exec, ?_, fun k hk => ?_, rfl, rfl⟩
  · have hreg := (State.reg_set s i i (alu .add (s.reg i) (s.reg j))).trans (if_pos rfl)
    exact (congrArg BitVec.toNat hreg).trans (alu_add_toNat _ _)
  · exact (State.reg_set s i k _).trans (if_neg hk)

/-! #### COMPARE and JUMP_IF_EQUAL -/

/-- COMPARE's flags are the three relations of the unsigned order (44_compare_and_jumps.md R153). -/
theorem compareFlags_eq (a b : Byte) : compareFlags a b =
    { equal := decide (a.toNat = b.toNat), less := decide (a.toNat < b.toNat), greater := decide (b.toNat < a.toNat) } := by
  unfold compareFlags
  rcases Nat.lt_trichotomy a.toNat b.toNat with hlt | heq | hgt
  · simp [hlt, Nat.ne_of_lt hlt, Nat.le_of_lt hlt]
  · simp [heq]
  · simp [hgt, Nat.ne_of_gt hgt, Nat.not_lt_of_gt hgt]

/-- Settles O29: the completed COMPARE and its two faults. -/
theorem compareSetsExactlyOneFlag : Obligations.CompareSetsExactlyOneFlag := by
  unfold Obligations.CompareSetsExactlyOneFlag
  refine ⟨fun s i j => ?_, fun s a b ha => (Raises.compareFirst b ha).exec,
    fun s a b ha hb => (Raises.compareSecond ha hb).exec⟩
  rw [← compareFlags_eq]
  exact (Completes.compare i j).exec

/-- Settles O30: the jump taken, not taken, and taken through a byte that names no register. -/
theorem jumpIfEqualFollowsTheEqualFlag : Obligations.JumpIfEqualFollowsTheEqualFlag := by
  unfold Obligations.JumpIfEqualFollowsTheEqualFlag
  exact ⟨fun s i he => (Completes.jumpIfEqualTaken i he).exec, fun s b he => (Completes.jumpIfEqualNotTaken b he).exec,
    fun s b he hb => (Raises.jumpIfEqual he hb).exec⟩

/-! #### PUSH and POP -/

/-- Settles O26: the completed PUSH writes one byte of memory; its two faults are the register's and the address's. -/
theorem pushStoresBelowTheStackPointer : Obligations.PushStoresBelowTheStackPointer := by
  unfold Obligations.PushStoresBelowTheStackPointer
  refine ⟨fun s i hwf hpos hle => ?done, fun s b hb => (Raises.pushRegister hb).exec, fun s b hb hsp => ?underflow⟩
  case done =>
    have hpush := (Completes.push i (inMemory_pushAddr hpos hle)).exec
    have hget := exec_push_mem_get hwf (inMemory_pushAddr hpos hle) hpush
    refine ⟨_, hpush, fun a ha => ?_, rfl, rfl, rfl⟩
    obtain rfl : a = s.sp - 1 := by unfold pushAddr at ha; omega
    exact ⟨(hget _).trans (if_pos rfl), rfl, fun b hb => (hget b).trans (if_neg hb)⟩
  case underflow =>
    have haddr : pushAddr s = -1 := by simp [pushAddr, hsp]
    have hout : ¬ inMemory (pushAddr s) := by simp [inMemory, haddr]
    rw [← haddr]
    exact (Raises.pushAddress hb hout).exec

/-- Settles O27: the completed POP writes one register; its two faults are the address's and the register's. -/
theorem popLoadsFromTheStackPointer : Obligations.PopLoadsFromTheStackPointer := by
  unfold Obligations.PopLoadsFromTheStackPointer
  refine ⟨fun s i hsp => ?done, fun s b hsp => ?overflow, fun s b hsp hb => (Raises.popRegister hsp hb).exec⟩
  case done =>
    refine ⟨_, (Completes.pop i hsp).exec, ?_, fun k hk => ?_, rfl, rfl, rfl⟩
    · exact (State.reg_set s i i _).trans (if_pos rfl)
    · exact (State.reg_set s i k _).trans (if_neg hk)
  case overflow =>
    have haddr : popAddr s = 256 := by simp [popAddr, hsp]
    rw [← haddr]
    exact (Raises.popAddress b (Nat.le_of_eq hsp.symm)).exec

end Sys2Proof.Machine

/-! ### The stack discipline (43_stack.md, the round-trip law) -/

namespace Sys2Proof.Machine

/-- The state a completed PUSH of register `i` leaves. -/
def pushed (s : State) (i : Fin Config.numRegs) : State :=
  ((s.withMem (s.mem.set (s.sp - 1) (s.reg i))).withSp (s.sp - 1)).withPc (s.pc + 2)

@[simp] theorem pushed_reg (s : State) (i k : Fin Config.numRegs) : (pushed s i).reg k = s.reg k := rfl
@[simp] theorem pushed_pc (s : State) (i : Fin Config.numRegs) : (pushed s i).pc = s.pc + 2 := rfl
@[simp] theorem pushed_sp (s : State) (i : Fin Config.numRegs) : (pushed s i).sp = s.sp - 1 := rfl
@[simp] theorem pushed_run (s : State) (i : Fin Config.numRegs) : (pushed s i).run = s.run := rfl

/-- With `sp` from 1 to `MEM_SIZE` a PUSH of a named register answers `pushed`. -/
theorem completes_pushed {s : State} (i : Fin Config.numRegs) (hpos : 1 ≤ s.sp) (hle : s.sp ≤ Config.memSize) :
    Completes s (.push (regByte i)) (pushed s i) :=
  .push i (inMemory_pushAddr hpos hle)

theorem pushed_mem_get {s : State} (hwf : s.mem.wf = true) (i : Fin Config.numRegs) (a : Nat) :
    (pushed s i).mem.get a = if a = s.sp - 1 then s.reg i else s.mem.get a :=
  Memory.get_set hwf

/-- In RUNNING a step at the opcode of a mnemonic under a map of distinct bytes runs what its two following bytes build. -/
theorem stepWith_of_opcode {opc : OpcodeMap} {s : State} {m : Mnemonic} (hinj : Function.Injective opc)
    (hrun : s.run = .running) (hpc : s.pc + 2 < Config.memSize) (hop : s.mem.get s.pc = opc m) :
    stepWith opc s = exec (buildInstr m (s.mem.get (s.pc + 1)) (s.mem.get (s.pc + 2))) s :=
  stepWith_of_decode_ok hrun hpc (decodeWith_eq_ok.mpr ⟨m, (lookupOpcode_eq_some hinj).mpr hop, rfl⟩)

/-- Settles O45: the PUSH leaves `pushed`, in which the POP's two bytes read as before and the byte at `sp` is the pushed one. -/
theorem pushThenPopRestores : Obligations.PushThenPopRestores := by
  unfold Obligations.PushThenPopRestores
  rintro opc s i j ⟨hinj, -⟩ hrun hwf hpos hle hpc hop hreg hop' hreg' hne hne'
  have hsize : Config.memSize = 256 := rfl
  have hpush : stepWith opc s = .next (pushed s i) := by
    rw [stepWith_of_opcode hinj hrun (by omega) hop, hreg]
    exact (completes_pushed i hpos hle).exec
  have hget := pushed_mem_get hwf i
  have htop : (pushed s i).mem.get (pushed s i).sp = s.reg i := (hget _).trans (if_pos rfl)
  have hb0 : (pushed s i).mem.get (pushed s i).pc = opc .pop := by
    rw [pushed_pc, hget, if_neg hne.symm, hop']
  have hb1 : (pushed s i).mem.get ((pushed s i).pc + 1) = regByte j := by
    rw [pushed_pc, hget, if_neg hne'.symm]
    exact hreg'
  have hpop := stepWith_of_opcode (s := pushed s i) hinj hrun (by rw [pushed_pc]; omega) hb0
  rw [hb1, buildInstr, (Completes.pop j (by rw [pushed_sp]; omega)).exec] at hpop
  refine ⟨pushed s i, _, hpush, hpop, ?reg, fun k hk => ?others, ?sp, rfl, ?frame⟩
  case reg =>
    exact ((State.reg_set (pushed s i) j j _).trans (if_pos rfl)).trans htop
  case others =>
    exact (State.reg_set (pushed s i) j k _).trans (if_neg hk)
  case sp => exact Nat.sub_add_cancel hpos
  case frame =>
    exact State.ext_fields rfl rfl (Nat.sub_add_cancel hpos) rfl rfl rfl rfl rfl

/-- Executing a list of instructions whose first completes is executing the rest from what it left. -/
theorem execAll_cons {i : Instr} {is : List Instr} {s t : State} (h : Completes s i t) :
    execAll (i :: is) s = execAll is t := by
  rw [execAll, h.exec]

/-- Settles O46: by induction on the list; the first pushed value stands just below the old `sp`, above all later ones. -/
theorem pushesStandInReverseOrder : Obligations.PushesStandInReverseOrder := by
  unfold Obligations.PushesStandInReverseOrder
  intro rs
  induction rs with
  | nil =>
    intro s _ _ _
    exact ⟨s, rfl, rfl, nofun, fun _ _ => rfl, rfl⟩
  | cons r rs ih =>
    intro s hwf hlen hle
    simp only [List.length_cons] at hlen ⊢
    have hpos : 1 ≤ s.sp := by omega
    have hfirst : Completes s (.push (regByte r)) (pushed s r) := completes_pushed r hpos hle
    have hget := pushed_mem_get hwf r
    obtain ⟨t, hall, hsp, hvals, hkeep, hframe⟩ := ih (pushed s r) (hfirst.mem_wf hwf) (by simp; omega) (by simp; omega)
    rw [pushed_sp] at hsp hkeep
    refine ⟨t, (execAll_cons hfirst).trans hall, by omega, fun k hk => ?vals, fun a ha => ?keep, ?frame⟩
    case vals =>
      rcases Nat.lt_succ_iff_lt_or_eq.mp hk with hlt | rfl
      · have hidx : rs.length + 1 - 1 - k = (rs.length - 1 - k) + 1 := by omega
        simp only [hidx, List.getElem_cons_succ]
        exact hvals k hlt
      · rw [hkeep _ (by omega), hget, if_pos (by omega)]
        simp
    case keep =>
      rw [hkeep a (by omega), hget, if_neg (by omega)]
    case frame =>
      rw [hframe]
      exact State.ext_fields rfl (by simp; omega) rfl rfl rfl rfl rfl rfl

end Sys2Proof.Machine

/-! ### Runs that never end and runs that do (40_engine_and_dispatch.md R109, 70_reset_and_hazards.md R209) -/

namespace Sys2Proof.Machine

/-- In RUNNING a budget of 0 is exhausted at once. -/
theorem runFor_zero {s : State} (hrun : s.run = .running) : runFor 0 s = .exhausted s := by
  simp [runFor, hrun]

/-- In RUNNING a budget of `k + 1` is one step and a budget of `k`. -/
theorem runFor_succ {k : Nat} {s t : State} (hrun : s.run = .running) (h : step s = .next t) :
    runFor (k + 1) s = runFor k t := by
  simp [runFor, hrun, h]

/-- In a terminal state every budget ends at once. -/
theorem runFor_of_runEnded {s : State} (hend : runEnded s) (k : Nat) : runFor k s = .ended s := by
  unfold runEnded at hend
  cases hs : s.run with
  | running => exact absurd hs hend
  | halted => cases k <;> simp [runFor, hs]
  | aborted => cases k <;> simp [runFor, hs]

/-- Settles O47: the step answers the state itself, so by induction every run does. -/
theorem jumpToItselfNeverEnds : Obligations.JumpToItselfNeverEnds := by
  unfold Obligations.JumpToItselfNeverEnds
  intro s i hrun hfetch hpc n
  have hstep : step s = .next s := by
    have hexec : step s = exec (.jump (regByte i)) s := by simp [step, stepWith, hrun, hfetch, regByte]
    rw [hexec, exec_jump_regByte, hpc]
    rfl
  induction n with
  | zero => exact ⟨rfl, runFor_zero hrun⟩
  | succ n ih =>
    obtain ⟨hcore, hbudget⟩ := ih
    exact ⟨core_run_succ.mpr ⟨s, hstep, hcore⟩, (runFor_succ hrun hstep).trans hbudget⟩

/-- Settles O48: by induction on the budget; a state is terminal, where every budget ends, or RUNNING, where a step is taken. -/
theorem budgetedRunEndsOnlyInTerminalStates : Obligations.BudgetedRunEndsOnlyInTerminalStates := by
  unfold Obligations.BudgetedRunEndsOnlyInTerminalStates
  intro k
  induction k with
  | zero =>
    intro s t
    by_cases hend : runEnded s
    · rw [runFor_of_runEnded hend]
      exact ⟨nofun, by rintro ⟨⟩; exact ⟨hend, fun j => runFor_of_runEnded hend _⟩⟩
    · have hrun : s.run = .running := not_not.mp hend
      rw [runFor_zero hrun]
      exact ⟨by rintro ⟨⟩; exact ⟨hrun, rfl⟩, nofun⟩
  | succ k ih =>
    intro s t
    by_cases hend : runEnded s
    · rw [runFor_of_runEnded hend]
      exact ⟨nofun, by rintro ⟨⟩; exact ⟨hend, fun j => runFor_of_runEnded hend _⟩⟩
    · have hrun : s.run = .running := not_not.mp hend
      obtain ⟨u, hstep⟩ : ∃ u, step s = .next u := stepWith_isNext_of_running hrun
      obtain ⟨hex, hended⟩ := ih u t
      rw [runFor_succ hrun hstep]
      refine ⟨fun h => ?_, fun h => ?_⟩
      · obtain ⟨ht, hcore⟩ := hex h
        exact ⟨ht, core_run_succ.mpr ⟨u, hstep, hcore⟩⟩
      · obtain ⟨ht, hmore⟩ := hended h
        refine ⟨ht, fun j => ?_⟩
        rw [Nat.succ_add, runFor_succ hrun hstep]
        exact hmore j

end Sys2Proof.Machine
